-- ==== Sys2Proof/Word.lean ====
section
/-! DEFINITION. Word types of the engine (00_scope.md R5, R6, R9). -/

namespace Sys2Proof

/-- A byte: an 8-bit unsigned value (R9). -/
abbrev Byte := BitVec 8

/-- A value of the 32-bit datapath, `W32` bits wide (R5, R100). -/
abbrev Word32 := BitVec 32

/-- A value of the 64-bit datapath, `W64` bits wide (R5, R100). -/
abbrev Word64 := BitVec 64

end Sys2Proof
end

