-- ==== Sys2Proof/Syntax.lean ====
section
/-! DEFINITION. The command triple, the fourteen commands, and the command errors' names. -/

namespace Sys2Proof

/-- The machine form of a command: the values on `cmd`, `opa` and `opb` when the engine accepts it (30_encoding.md R71). -/
structure Command where
  cmd : Word32
  opa : Word64
  opb : Word64
  deriving DecidableEq, Repr, Inhabited

/-- The fourteen commands of R76, each with the operands R73 says it reads. -/
inductive Instr where
  /-- NOP, opcode 0x00 (R190). -/
  | nop
  /-- INIT32, opcode 0x01 (R140); `seed` is `OPA[31:0]`. -/
  | init32 (seed : Word32)
  /-- RESET32, opcode 0x02 (R141). -/
  | reset32
  /-- WRITE32, opcode 0x03 (R142); `cnt` is `CMD[11:8]`, `data` is `OPA`. -/
  | write32 (cnt : BitVec 4) (data : Word64)
  /-- SUM32, opcode 0x04 (R143). -/
  | sum32
  /-- SIZE32, opcode 0x05 (R144). -/
  | size32
  /-- INIT128, opcode 0x10 (R160); the seeds are `OPA` and `OPB`. -/
  | init128 (seed1 : Word64) (seed2 : Word64)
  /-- INIT64, opcode 0x11 (R161); `seed` is `OPA`. -/
  | init64 (seed : Word64)
  /-- RESET128, opcode 0x12 (R162). -/
  | reset128
  /-- WRITE128, opcode 0x13 (R163); `cnt` is `CMD[11:8]`, `data` is `OPA`. -/
  | write128 (cnt : BitVec 4) (data : Word64)
  /-- SUM128, opcode 0x14 (R164). -/
  | sum128
  /-- SUM64, opcode 0x15 (R165). -/
  | sum64
  /-- SIZE128, opcode 0x16 (R166). -/
  | size128
  /-- SIZE64, opcode 0x17 (R167). -/
  | size64
  deriving DecidableEq, Repr

/-- The command errors of 60_exceptions.md R201. -/
inductive CommandError where
  /-- Code 1: `CMD[7:0]` is not an opcode of R76. -/
  | illegalOpcode
  /-- Code 2: `RSV` is not 0, or `CNT` is not 0 on a command other than WRITE32 and WRITE128. -/
  | reservedField
  /-- Code 3: `CNT` is above 8 on WRITE32 or WRITE128. -/
  | countRange
  /-- Code 15: a block read past the end of its bytes, or a buffer at or over its block size between commands. -/
  | invariant
  deriving DecidableEq, Repr

end Sys2Proof
end

