-- ==== Sys2Proof/Config.lean ====
section
/-! DEFINITION. The engine's fixed parameters (00_scope.md R5) and the values the spec leaves open. -/

namespace Sys2Proof.Config

/-- `BLK32`, bytes in one block of the 32-bit variant (R5). -/
def blk32 : Nat := 4

/-- `BLK128`, bytes in one block of the 128-bit variant (R5). -/
def blk128 : Nat := 16

/-- `CNT_MAX`, the largest byte count of one WRITE command (R5, R75). -/
def cntMax : Nat := 8

/-- FREE VALUE (R238, 93 U8; log 5): what `res0` shows at the n-th read made while `cmd_ready = 0`. -/
opaque freeRes0 : Nat → Word64

/-- FREE VALUE (R238, 93 U8; log 5): what `res1` shows at the n-th read made while `cmd_ready = 0`. -/
opaque freeRes1 : Nat → Word64

/-- FREE VALUE (R238, 93 U8; log 5): what `status` shows at the n-th read made while `cmd_ready = 0`. -/
opaque freeStatus : Nat → Word32

end Sys2Proof.Config
end

