-- ==== Sys2Proof/WellFormed.lean ====
section
/-! DEFINITION. Which instruction terms stand for a legal command (30_encoding.md R75): the one bound is CNT's, 0 to 8. -/

namespace Sys2Proof

/-- `CNT` is legal only from 0 to 8 (R75). -/
def countLegal (cnt : BitVec 4) : Bool := cnt.toNat ≤ Config.cntMax

/-- The well-formedness check of an instruction term. Seeds and data admit every value (R209). -/
def Instr.wf : Instr → Bool
  | .nop => true
  | .init32 _ => true
  | .reset32 => true
  | .write32 cnt _ => countLegal cnt
  | .sum32 => true
  | .size32 => true
  | .init128 _ _ => true
  | .init64 _ => true
  | .reset128 => true
  | .write128 cnt _ => countLegal cnt
  | .sum128 => true
  | .sum64 => true
  | .size128 => true
  | .size64 => true

end Sys2Proof
end

