-- ==== Sys2Proof/Decode.lean ====
section
/-! DEFINITION. Decoding a command (30_encoding.md R72 to R79), total, rejecting by the error codes' names; then the
encoder, and the match and mask table of R76. -/

namespace Sys2Proof

/-- Field `OP`, bits 7:0 of the command word (R72). -/
def opField (cmd : Word32) : BitVec 8 := cmd.extractLsb' 0 8

/-- Field `CNT`, bits 11:8 of the command word (R72). -/
def cntField (cmd : Word32) : BitVec 4 := cmd.extractLsb' 8 4

/-- Field `RSV`, bits 31:12 of the command word (R72). -/
def rsvField (cmd : Word32) : BitVec 20 := cmd.extractLsb' 12 20

/-- The command an opcode names, with the operands of R73 taken out of the triple; none for an opcode R76 does not assign. -/
def selectOpcode (c : Command) : Option Instr :=
  match (opField c.cmd).toNat with
  | 0x00 => some .nop
  | 0x01 => some (.init32 (c.opa.setWidth 32))
  | 0x02 => some .reset32
  | 0x03 => some (.write32 (cntField c.cmd) c.opa)
  | 0x04 => some .sum32
  | 0x05 => some .size32
  | 0x10 => some (.init128 c.opa c.opb)
  | 0x11 => some (.init64 c.opa)
  | 0x12 => some .reset128
  | 0x13 => some (.write128 (cntField c.cmd) c.opa)
  | 0x14 => some .sum128
  | 0x15 => some .sum64
  | 0x16 => some .size128
  | 0x17 => some .size64
  | _ => none

/-- Whether `CNT` carries a byte count in this command; in every other command it is reserved (R72). -/
def Instr.hasCount : Instr → Bool
  | .write32 _ _ => true
  | .write128 _ _ => true
  | .nop | .init32 _ | .reset32 | .sum32 | .size32 | .init128 _ _ | .init64 _ | .reset128
  | .sum128 | .sum64 | .size128 | .size64 => false

/-- The decoder: R77's checks in R77's order. -/
def decode (c : Command) : Except CommandError Instr :=
  match selectOpcode c with
  | none => .error .illegalOpcode
  | some i =>
    if rsvField c.cmd ≠ 0 then .error .reservedField
    else if i.hasCount = false ∧ cntField c.cmd ≠ 0 then .error .reservedField
    else if i.hasCount = true ∧ Config.cntMax < (cntField c.cmd).toNat then .error .countRange
    else .ok i

/-- The opcode of a command (R76). -/
def Instr.opcode : Instr → BitVec 8
  | .nop => 0x00
  | .init32 _ => 0x01
  | .reset32 => 0x02
  | .write32 _ _ => 0x03
  | .sum32 => 0x04
  | .size32 => 0x05
  | .init128 _ _ => 0x10
  | .init64 _ => 0x11
  | .reset128 => 0x12
  | .write128 _ _ => 0x13
  | .sum128 => 0x14
  | .sum64 => 0x15
  | .size128 => 0x16
  | .size64 => 0x17

/-- What stands in `CNT`: the byte count of a WRITE, 0 elsewhere (R72). -/
def Instr.countBits : Instr → BitVec 4
  | .write32 cnt _ => cnt
  | .write128 cnt _ => cnt
  | .nop | .init32 _ | .reset32 | .sum32 | .size32 | .init128 _ _ | .init64 _ | .reset128
  | .sum128 | .sum64 | .size128 | .size64 => 0

/-- What stands on `opa` (R73); bits the command does not read are 0. -/
def Instr.operandA : Instr → Word64
  | .init32 seed => seed.setWidth 64
  | .write32 _ data => data
  | .init128 seed1 _ => seed1
  | .init64 seed => seed
  | .write128 _ data => data
  | .nop | .reset32 | .sum32 | .size32 | .reset128 | .sum128 | .sum64 | .size128 | .size64 => 0

/-- What stands on `opb` (R73); only INIT128 reads it. -/
def Instr.operandB : Instr → Word64
  | .init128 _ seed2 => seed2
  | .nop | .init32 _ | .reset32 | .write32 _ _ | .sum32 | .size32 | .init64 _ | .reset128 | .write128 _ _
  | .sum128 | .sum64 | .size128 | .size64 => 0

/-- The command word: `RSV = 0`, then `CNT`, then `OP` (R72). -/
def Instr.commandWord (i : Instr) : Word32 := (0#20 ++ i.countBits) ++ i.opcode

/-- The encoder: the triple of R71 for an instruction. -/
def encode (i : Instr) : Command := { cmd := i.commandWord, opa := i.operandA, opb := i.operandB }

/-- One line of R76's list "Full match and mask per command"; `counted` marks the lines that add "and CNT ≤ 8". -/
structure OpcodeRow where
  mnemonic : String
  pattern : Word32
  mask : Word32
  counted : Bool
  deriving DecidableEq, Repr

/-- R76's list, line by line. -/
def opcodeRows : List OpcodeRow :=
  [ ⟨"NOP", 0x00000000, 0xFFFFFFFF, false⟩,
    ⟨"INIT32", 0x00000001, 0xFFFFFFFF, false⟩,
    ⟨"RESET32", 0x00000002, 0xFFFFFFFF, false⟩,
    ⟨"WRITE32", 0x00000003, 0xFFFFF0FF, true⟩,
    ⟨"SUM32", 0x00000004, 0xFFFFFFFF, false⟩,
    ⟨"SIZE32", 0x00000005, 0xFFFFFFFF, false⟩,
    ⟨"INIT128", 0x00000010, 0xFFFFFFFF, false⟩,
    ⟨"INIT64", 0x00000011, 0xFFFFFFFF, false⟩,
    ⟨"RESET128", 0x00000012, 0xFFFFFFFF, false⟩,
    ⟨"WRITE128", 0x00000013, 0xFFFFF0FF, true⟩,
    ⟨"SUM128", 0x00000014, 0xFFFFFFFF, false⟩,
    ⟨"SUM64", 0x00000015, 0xFFFFFFFF, false⟩,
    ⟨"SIZE128", 0x00000016, 0xFFFFFFFF, false⟩,
    ⟨"SIZE64", 0x00000017, 0xFFFFFFFF, false⟩ ]

/-- A command word selects a row (R76): `(w & mask) = match`, and where the row says so `CNT` ≤ 8. -/
def OpcodeRow.selects (r : OpcodeRow) (w : Word32) : Bool :=
  (w &&& r.mask) == r.pattern && (!r.counted || countLegal (cntField w))

/-- The mnemonic of a command (R76). -/
def Instr.mnemonic : Instr → String
  | .nop => "NOP"
  | .init32 _ => "INIT32"
  | .reset32 => "RESET32"
  | .write32 _ _ => "WRITE32"
  | .sum32 => "SUM32"
  | .size32 => "SIZE32"
  | .init128 _ _ => "INIT128"
  | .init64 _ => "INIT64"
  | .reset128 => "RESET128"
  | .write128 _ _ => "WRITE128"
  | .sum128 => "SUM128"
  | .sum64 => "SUM64"
  | .size128 => "SIZE128"
  | .size64 => "SIZE64"

/-- The triple whose bits are `w`: `cmd` in bits 31:0, `opa` in 95:32, `opb` in 159:96, bits from `nbits` up read as 0.
DESIGN CHOICE (log 2): the spec gives three parallel buses and no order among them. -/
def commandOfBits (nbits w : Nat) : Command :=
  let v := BitVec.ofNat 160 (w % 2 ^ nbits)
  { cmd := v.extractLsb' 0 32, opa := v.extractLsb' 32 64, opb := v.extractLsb' 96 64 }

/-- The instruction the decoder reads from a table word; none where it raises a command error. -/
def decodeTableWord (nbits w : Nat) : Option Instr :=
  match decode (commandOfBits nbits w) with
  | .ok i => some i
  | .error _ => none

end Sys2Proof
end

