-- ==== Sys2Proof/Machine/State.lean ====
section
/-! DEFINITION. Everything the spec gives the machine (10_state.md R20 to R37), as plain data, and its reset value
(70_reset_and_hazards.md R231). The host's side (its program, its moves, what it has read) stands in the same record. -/

namespace Sys2Proof.Machine

/-- CTX32, the 32-bit digest (R20 to R24). -/
structure Ctx32 where
  /-- `SEED32` (R21). -/
  seed32 : Word32
  /-- `H32`, the accumulator (R22). -/
  h32 : Word32
  /-- `BUF32`, the bytes not yet mixed, in stream order (R23, R39). -/
  buf32 : List Byte
  /-- `TLEN32`, bytes written since the digest was last seeded, modulo 2^64 (R24). -/
  tlen32 : Word64
  deriving DecidableEq, Repr

/-- CTX128, the 128-bit digest; the 64-bit digest is a view of it (R20, R25 to R28, R41). -/
structure Ctx128 where
  /-- `SEED1` (R25). -/
  seed1 : Word64
  /-- `SEED2` (R25). -/
  seed2 : Word64
  /-- `H1`, lane 1 (R26). -/
  h1 : Word64
  /-- `H2`, lane 2 (R26). -/
  h2 : Word64
  /-- `BUF128`, the bytes not yet mixed, in stream order (R27, R39). -/
  buf128 : List Byte
  /-- `TLEN128`, bytes written since the digest was last seeded, modulo 2^64 (R28). -/
  tlen128 : Word64
  deriving DecidableEq, Repr

/-- The fields of `STATUS` (R30); `Status.word` in Flags.lean is the 32-bit register. The reserved bits are not stored (R34). -/
structure Status where
  /-- `ERR`, bit 0 (R31). -/
  err : Bool
  /-- `ECODE`, bits 7:4: the first command error since hardware reset (R32); none is code 0 (log 14). -/
  ecode : Option CommandError
  /-- `LASTCNT`, bits 11:8 (R33). -/
  lastCnt : BitVec 4
  deriving DecidableEq, Repr

/-- The three outputs the host can read, and the observation of R242: `res0`, `res1`, `status` (R35, R70). -/
structure PortView where
  res0 : Word64
  res1 : Word64
  status : Word32
  deriving DecidableEq, Repr

/-- One interaction of the host (R243). Every `issue…` presents the command at `pc` with `cmd_valid = 1`. -/
inductive HostMove where
  /-- Present the command at `pc`. -/
  | issue
  /-- Present the command at `pc`, and read the outputs `n` times between its acceptance and its end (R238; log 6). -/
  | issueReading (n : Nat)
  /-- Present the command at `pc`, read the outputs `n` times, and drive `rst = 1` before it ends (R244; log 6). -/
  | issueAborted (n : Nat)
  /-- Read `res0`, `res1` and `status` (R58, R238). -/
  | read
  /-- Drive `rst` to a level (R230). -/
  | driveRst (level : Bool)
  deriving DecidableEq, Repr

/-- The whole state: the engine's (R20), the pins and the host's. -/
structure State where
  /-- CTX32 (R20). -/
  ctx32 : Ctx32
  /-- CTX128 (R20). -/
  ctx128 : Ctx128
  /-- `RES0` (R29). -/
  res0 : Word64
  /-- `RES1` (R29). -/
  res1 : Word64
  /-- `STATUS` (R30). -/
  status : Status
  /-- The level on `rst` (R70, R230). -/
  rst : Bool
  /-- The host program `P` (R37). -/
  program : List Command
  /-- The host program counter (R37). -/
  pc : Nat
  /-- The host's next moves, oldest first; when there is none the host issues the command at `pc` (log 1). -/
  schedule : List HostMove
  /-- What the host's reads gave it, oldest first (R243; log 5). -/
  reads : List PortView
  /-- How many free values have been drawn (log 5). -/
  draws : Nat
  deriving DecidableEq, Repr

/-- Why the machine stops. -/
inductive Fault where
  /-- Command error 15, INVARIANT (R106, R201, R208): raised by WRITE32, SUM32, WRITE128, SUM128 and SUM64 on a buffer at or
  over its block size or on a block read past the end. `left` is the state R203 leaves: as before the command, apart from
  STATUS. The fault is permanent (R217). SAFE: the machine stops and no result is read after it; no run reaches it (log 7). -/
  | invariant (left : State)
  deriving DecidableEq, Repr

/-- Why an instruction has no meaning. -/
inductive Refusal where
  /-- Raised by `exec` for an instruction that has no meaning yet; no arm of this model raises it. SAFE. -/
  | notModelled (mnemonic : String)
  deriving DecidableEq, Repr

/-- CTX32 after hardware reset: a seeded digest with seed 0 (R231, R232). -/
def Ctx32.reset : Ctx32 := { seed32 := 0, h32 := 0, buf32 := [], tlen32 := 0 }

/-- CTX128 after hardware reset: a seeded digest with seeds 0, 0 (R231, R232). -/
def Ctx128.reset : Ctx128 := { seed1 := 0, seed2 := 0, h1 := 0, h2 := 0, buf128 := [], tlen128 := 0 }

/-- STATUS after hardware reset: 0x00000000 (R231). -/
def Status.reset : Status := { err := false, ecode := none, lastCnt := 0 }

/-- The machine right after hardware reset (R231), the host having released `rst` (R234), with no program and no move (log 1). -/
def State.reset : State :=
  { ctx32 := Ctx32.reset, ctx128 := Ctx128.reset, res0 := 0, res1 := 0, status := Status.reset, rst := false,
    program := [], pc := 0, schedule := [], reads := [], draws := 0 }

end Sys2Proof.Machine
end

