-- ==== Sys2Proof/Machine/Flags.lean ====
section
/-! DEFINITION. The status register: its 32 bits (10_state.md R30, R34), the error codes (60_exceptions.md R201), and the two
ways it is written (R203, R33). The engine has no other flag (R38). -/

namespace Sys2Proof.Machine

/-- The code stored in `ECODE` (R201). -/
def errorCode : CommandError → BitVec 4
  | .illegalOpcode => 1
  | .reservedField => 2
  | .countRange => 3
  | .invariant => 15

/-- `ECODE` as four bits; 0 while no error is recorded (R30). -/
def Status.ecodeBits (st : Status) : BitVec 4 :=
  match st.ecode with
  | none => 0
  | some e => errorCode e

/-- The 32 bits of `STATUS`: zeros, `LASTCNT`, `ECODE`, zeros, `ERR` (R30, R34). -/
def Status.word (st : Status) : Word32 :=
  0#20 ++ (st.lastCnt ++ (st.ecodeBits ++ (0#3 ++ BitVec.ofBool st.err)))

/-- R203: the first error's code is kept, and `ERR` becomes 1. -/
def Status.recordError (st : Status) (e : CommandError) : Status :=
  { st with err := true, ecode := if st.err then st.ecode else some e }

/-- R33: an accepted WRITE leaves its byte count in `LASTCNT`. -/
def Status.recordCount (st : Status) (cnt : BitVec 4) : Status := { st with lastCnt := cnt }

end Sys2Proof.Machine
end

