-- ==== Sys2Proof/Machine/Operands.lean ====
section
/-! DEFINITION. From operands and stream bytes to words: the write bytes of a WRITE (20_memory.md R52) and the block
reader (40_datapath.md R105, R106). Everything is little-endian (R53). -/

namespace Sys2Proof.Machine

/-- The write bytes of a WRITE: byte `i` is `OPA[8i+7:8i]`, for `i < CNT` (R52). -/
def writeBytes (cnt : BitVec 4) (opa : Word64) : List Byte :=
  (List.range cnt.toNat).map fun i => opa.extractLsb' (8 * i) 8

/-- The sum over `j` of `zext(s[j]) << (8 j)`, as a `w`-bit number (R53): the first byte is the least significant. -/
def leSum (w : Nat) : List Byte → BitVec w
  | [] => 0
  | b :: s => b.setWidth w + (leSum w s <<< 8)

/-- `LE(s, o, n)` (R105); none past the end of the bytes, which never has a value (R106, 93 U1). -/
def le (s : List Byte) (o n : Nat) : Option (BitVec (8 * n)) :=
  if o + n ≤ s.length then some (leSum (8 * n) ((s.drop o).take n)) else none

/-- `LE32(s, o)` (R105). -/
def le32 (s : List Byte) (o : Nat) : Option Word32 := le s o 4

/-- `LE64(s, o)` (R105). -/
def le64 (s : List Byte) (o : Nat) : Option Word64 := le s o 8

/-- The data word of a WRITE written as a byte list: `b0 | b1<<8 | …` (R80). -/
def packBytes (s : List Byte) : Word64 := leSum 64 s

end Sys2Proof.Machine
end

