-- ==== Sys2Proof/Machine/Mix32.lean ====
section
/-! DEFINITION. The rotation and the 32-bit mixer (40_datapath.md R104, R107 to R112): pure functions, modulo 2^32 (R100). -/

namespace Sys2Proof.Machine

/-- `rotl_N(x, r)` for `0 < r < N` (R104). -/
def rotl {n : Nat} (x : BitVec n) (r : Nat) : BitVec n := (x <<< r) ||| (x >>> (n - r))

/-- `kmix32(k)` (R108, constants R107). -/
def kmix32 (k : Word32) : Word32 := rotl (k * 0xcc9e2d51#32) 15 * 0x1b873593#32

/-- `round32(h, k)` (R109). -/
def round32 (h k : Word32) : Word32 := rotl (h ^^^ kmix32 k) 13 * 5#32 + 0xe6546b64#32

/-- One complete block mixed into the accumulator: `round32(h, LE32(block, 0))` (R109, R142). -/
def mixBlock32 (h : Word32) (blk : List Byte) : Option Word32 := (le32 blk 0).map (round32 h)

/-- `tail32(h, t)` (R110). -/
def tail32 (h : Word32) (t : List Byte) : Word32 := if t.length = 0 then h else h ^^^ kmix32 (leSum 32 t)

/-- `x ^ (x >> s)`, the shift-and-xor of both avalanche steps (R111, R118). -/
def xorShift {n : Nat} (x : BitVec n) (s : Nat) : BitVec n := x ^^^ (x >>> s)

/-- `fmix32(h)` (R111). -/
def fmix32 (h : Word32) : Word32 :=
  xorShift (xorShift (xorShift h 16 * 0x85ebca6b#32) 13 * 0xc2b2ae35#32) 16

/-- `final32(h, t, L)` (R112): only the low 32 bits of the length take part. -/
def final32 (h : Word32) (t : List Byte) (len : Word64) : Word32 := fmix32 (tail32 h t ^^^ len.setWidth 32)

end Sys2Proof.Machine
end

