-- ==== Sys2Proof/Machine/Mix128.lean ====
section
/-! DEFINITION. The 128-bit mixer (40_datapath.md R113 to R120): pure functions on a pair of lanes, modulo 2^64 (R100). -/

namespace Sys2Proof.Machine

/-- The ordered pair of lanes `h1`, `h2` (R13, R26). -/
structure Lanes where
  h1 : Word64
  h2 : Word64
  deriving DecidableEq, Repr

/-- `kmix1(k)` (R114, constants R113). -/
def kmix1 (k : Word64) : Word64 := rotl (k * 0x87c37b91114253d5#64) 31 * 0x4cf5ad432745937f#64

/-- `kmix2(k)`: the constants the other way round, rotation 33 (R115). -/
def kmix2 (k : Word64) : Word64 := rotl (k * 0x4cf5ad432745937f#64) 33 * 0x87c37b91114253d5#64

/-- `round128` on the two halves of a block; lane 2 uses the new `h1` (R116). -/
def round128 (l : Lanes) (k1 k2 : Word64) : Lanes :=
  let h1 := (rotl (l.h1 ^^^ kmix1 k1) 27 + l.h2) * 5#64 + 0x52dce729#64
  { h1 := h1, h2 := (rotl (l.h2 ^^^ kmix2 k2) 31 + h1) * 5#64 + 0x38495ab5#64 }

/-- One complete block mixed into the lanes: its halves are `LE64(blk, 0)` and `LE64(blk, 8)` (R116). -/
def mixBlock128 (l : Lanes) (blk : List Byte) : Option Lanes :=
  match le64 blk 0, le64 blk 8 with
  | some k1, some k2 => some (round128 l k1 k2)
  | _, _ => none

/-- `tail128(h1, h2, t)` (R117): bytes 0 to 7 feed lane 1, bytes 8 to 14 lane 2. -/
def tail128 (l : Lanes) (t : List Byte) : Lanes :=
  { h1 := if 0 < t.length then l.h1 ^^^ kmix1 (leSum 64 (t.take 8)) else l.h1,
    h2 := if 8 < t.length then l.h2 ^^^ kmix2 (leSum 64 (t.drop 8)) else l.h2 }

/-- `fmix64(k)` (R118). -/
def fmix64 (k : Word64) : Word64 :=
  xorShift (xorShift (xorShift k 33 * 0xff51afd7ed558ccd#64) 33 * 0xc4ceb9fe1a85ec53#64) 33

/-- The length folded into both lanes (R119). -/
def Lanes.xorLength (l : Lanes) (len : Word64) : Lanes := { h1 := l.h1 ^^^ len, h2 := l.h2 ^^^ len }

/-- The cross-add `h1 = h1 + h2; h2 = h2 + h1`; the second sum uses the new `h1` (R119). -/
def Lanes.crossAdd (l : Lanes) : Lanes := { h1 := l.h1 + l.h2, h2 := l.h2 + (l.h1 + l.h2) }

/-- The avalanche of both lanes (R119). -/
def Lanes.avalanche (l : Lanes) : Lanes := { h1 := fmix64 l.h1, h2 := fmix64 l.h2 }

/-- `final128(h1, h2, t, L)` (R119), its stages in R121's order. -/
def final128 (l : Lanes) (t : List Byte) (len : Word64) : Lanes :=
  ((tail128 l t).xorLength len).crossAdd.avalanche.crossAdd

/-- `final64(h1, h2, t, L)`: the first component of `final128` (R120). -/
def final64 (l : Lanes) (t : List Byte) (len : Word64) : Word64 := (final128 l t len).h1

end Sys2Proof.Machine
end

