-- ==== Sys2Proof/Machine/Streaming.lean ====
section
/-! DEFINITION. The streaming digest with its block-alignment buffer (00_scope.md R2), once for both widths: the byte-serial
loop of WRITE32 and WRITE128 (41_digest32.md R142, 42_digest128.md R163). -/

namespace Sys2Proof.Machine

/-- One pass of the loop: append the byte, and when the buffer holds `blk` bytes mix them and empty it. None where the mix
would read past its bytes (R106). -/
def absorbByte {α : Type} (blk : Nat) (mix : α → List Byte → Option α) (acc : α) (buf : List Byte) (b : Byte) :
    Option (α × List Byte) :=
  if (buf ++ [b]).length = blk then (mix acc (buf ++ [b])).map fun a => (a, [])
  else some (acc, buf ++ [b])

/-- The loop over the write bytes (R142, R163). -/
def absorb {α : Type} (blk : Nat) (mix : α → List Byte → Option α) : α → List Byte → List Byte → Option (α × List Byte)
  | acc, buf, [] => some (acc, buf)
  | acc, buf, b :: bs =>
    match absorbByte blk mix acc buf b with
    | none => none
    | some (a, u) => absorb blk mix a u bs

end Sys2Proof.Machine
end

