-- ==== Sys2Proof/Machine/Ops.lean ====
section
/-! DEFINITION. The shared operations on the state: raising a command error (60_exceptions.md R203), seeding and resetting a
context, writing results, taking write bytes, hardware reset (70_reset_and_hazards.md R231) and reading the port (R238).
The engine has no memory (20_memory.md R50) and no return from an error (R205). -/

namespace Sys2Proof.Machine

/-- What every meaning and step answers. -/
abbrev Result := Host.Outcome State Fault Refusal

/-- `raise CommandError(code)` (R203): STATUS records the error, and nothing else changes. -/
def raiseCommandError (e : CommandError) (s : State) : State := { s with status := s.status.recordError e }

/-- Command error 15: recorded as R203 says, and the machine stops for good (R217, 93 U1 and U2; log 7). -/
def invariantFault (s : State) : Result := .fault (.invariant (raiseCommandError .invariant s))

/-- CTX32 seeded with a seed (R140). -/
def Ctx32.seeded (seed : Word32) : Ctx32 := { seed32 := seed, h32 := seed, buf32 := [], tlen32 := 0 }

/-- CTX32 back at its own seed (R141). -/
def Ctx32.restart (c : Ctx32) : Ctx32 := { c with h32 := c.seed32, buf32 := [], tlen32 := 0 }

/-- CTX128 seeded with two seeds (R160). -/
def Ctx128.seeded (seed1 seed2 : Word64) : Ctx128 :=
  { seed1 := seed1, seed2 := seed2, h1 := seed1, h2 := seed2, buf128 := [], tlen128 := 0 }

/-- CTX128 back at its own seeds (R162). -/
def Ctx128.restart (c : Ctx128) : Ctx128 := { c with h1 := c.seed1, h2 := c.seed2, buf128 := [], tlen128 := 0 }

/-- The lane pair of CTX128. -/
def Ctx128.lanes (c : Ctx128) : Lanes := { h1 := c.h1, h2 := c.h2 }

/-- A context is seeded (R36): a name for values, not extra state. -/
abbrev Ctx32.isSeeded (c : Ctx32) : Prop := c.h32 = c.seed32 ∧ c.buf32 = [] ∧ c.tlen32 = 0

/-- A context is seeded (R36). -/
abbrev Ctx128.isSeeded (c : Ctx128) : Prop :=
  c.h1 = c.seed1 ∧ c.h2 = c.seed2 ∧ c.buf128 = [] ∧ c.tlen128 = 0

/-- Put a CTX32 into the state. -/
def State.setCtx32 (s : State) (c : Ctx32) : State := { s with ctx32 := c }

/-- Put a CTX128 into the state. -/
def State.setCtx128 (s : State) (c : Ctx128) : State := { s with ctx128 := c }

/-- Write both result registers (R29). -/
def State.setResults (s : State) (r0 r1 : Word64) : State := { s with res0 := r0, res1 := r1 }

/-- Leave a byte count in `STATUS.LASTCNT` (R33). -/
def State.setLastCnt (s : State) (cnt : BitVec 4) : State := { s with status := s.status.recordCount cnt }

/-- CTX32 after taking in write bytes (R142): blocks mixed, the rest buffered, the length counter moved by the byte count. -/
def Ctx32.take (c : Ctx32) (cnt : BitVec 4) (bytes : List Byte) : Option Ctx32 :=
  match absorb Config.blk32 mixBlock32 c.h32 c.buf32 bytes with
  | none => none
  | some (h, buf) => some { c with h32 := h, buf32 := buf, tlen32 := c.tlen32 + cnt.setWidth 64 }

/-- CTX128 after taking in write bytes (R163). -/
def Ctx128.take (c : Ctx128) (cnt : BitVec 4) (bytes : List Byte) : Option Ctx128 :=
  match absorb Config.blk128 mixBlock128 c.lanes c.buf128 bytes with
  | none => none
  | some (l, buf) => some { c with h1 := l.h1, h2 := l.h2, buf128 := buf, tlen128 := c.tlen128 + cnt.setWidth 64 }

/-- Run a command that reads BUF32 only while the buffer is under its block size; otherwise error 15 (R40, R201; log 7). -/
def guard32 (s : State) (k : Result) : Result := if s.ctx32.buf32.length < Config.blk32 then k else invariantFault s

/-- The same for BUF128. -/
def guard128 (s : State) (k : Result) : Result := if s.ctx128.buf128.length < Config.blk128 then k else invariantFault s

/-- Hardware reset of the engine (R231): every piece of R20's state. The host's side is not the engine's (log 10). -/
def State.hardwareReset (s : State) : State :=
  { s with ctx32 := Ctx32.reset, ctx128 := Ctx128.reset, res0 := 0, res1 := 0, status := Status.reset }

/-- `cmd_ready` between two steps: 0 while `rst = 1` (R230), 1 otherwise (R236; log 4). -/
def State.cmdReady (s : State) : Bool := !s.rst

/-- What the outputs show while `cmd_ready = 1`, and the observation of R242. -/
def State.observation (s : State) : PortView := { res0 := s.res0, res1 := s.res1, status := s.status.word }

/-- What the outputs show while `cmd_ready = 0`: free values (R238; log 5). -/
def freeView (n : Nat) : PortView :=
  { res0 := Config.freeRes0 n, res1 := Config.freeRes1 n, status := Config.freeStatus n }

/-- One host read while `cmd_ready = 0`: a draw of its own (R238). -/
def State.drawRead (s : State) : State := { s with reads := s.reads ++ [freeView s.draws], draws := s.draws + 1 }

/-- `n` host reads while `cmd_ready = 0` (R238, R243: any number of times). -/
def State.readBusy : Nat → State → State
  | 0, s => s
  | n + 1, s => State.readBusy n s.drawRead

/-- One host read (R58, R238). -/
def State.hostRead (s : State) : State :=
  if s.cmdReady then { s with reads := s.reads ++ [s.observation] } else s.drawRead

/-- The host drives `rst` (R230): while it is 1, and at the first edge where it is 0 again, all state is at its reset value. -/
def State.driveRst (s : State) (level : Bool) : State :=
  if s.rst || level then { s.hardwareReset with rst := level } else s

/-- The host program counter moves past an accepted command (R37). -/
def State.advance (s : State) : State := { s with pc := s.pc + 1 }

/-- Run `k` on a next state; a stop stays a stop. -/
def andThen (r : Result) (k : State → Result) : Result :=
  match r with
  | .next s => k s
  | .fault f => .fault f
  | .refused x => .refused x

end Sys2Proof.Machine
end

