-- ==== Sys2Proof/Machine/Digest128.lean ====
section
/-! DEFINITION. The eight commands of the 128-bit digest and its 64-bit view (42_digest128.md). -/

namespace Sys2Proof.Machine

/-- INIT128 (R160). -/
def execInit128 (seed1 seed2 : Word64) (s : State) : Result := .next (s.setCtx128 (Ctx128.seeded seed1 seed2))

/-- INIT64: one seed for both lanes (R161). -/
def execInit64 (seed : Word64) (s : State) : Result := .next (s.setCtx128 (Ctx128.seeded seed seed))

/-- RESET128 (R162). -/
def execReset128 (s : State) : Result := .next (s.setCtx128 s.ctx128.restart)

/-- WRITE128 (R163). A count above 8 is command error 3 here too (log 8). -/
def execWrite128 (cnt : BitVec 4) (data : Word64) (s : State) : Result :=
  if countLegal cnt then
    guard128 s
      (match s.ctx128.take cnt (writeBytes cnt data) with
        | some c => .next ((s.setCtx128 c).setLastCnt cnt)
        | none => invariantFault s)
  else .next (raiseCommandError .countRange s)

/-- SUM128 (R164): `RES0` is lane `h1`, `RES1` lane `h2`. -/
def execSum128 (s : State) : Result :=
  guard128 s
    (.next (s.setResults (final128 s.ctx128.lanes s.ctx128.buf128 s.ctx128.tlen128).h1
      (final128 s.ctx128.lanes s.ctx128.buf128 s.ctx128.tlen128).h2))

/-- SUM64 (R165): lane `h1` alone, and `RES1` is 0. -/
def execSum64 (s : State) : Result :=
  guard128 s (.next (s.setResults (final64 s.ctx128.lanes s.ctx128.buf128 s.ctx128.tlen128) 0))

/-- SIZE128 (R166). -/
def execSize128 (s : State) : Result := .next (s.setResults 16 0)

/-- SIZE64 (R167). -/
def execSize64 (s : State) : Result := .next (s.setResults 8 0)

end Sys2Proof.Machine
end

