-- ==== Sys2Proof/Machine/Digest32.lean ====
section
/-! DEFINITION. The five commands of the 32-bit digest (41_digest32.md). -/

namespace Sys2Proof.Machine

/-- INIT32 (R140). -/
def execInit32 (seed : Word32) (s : State) : Result := .next (s.setCtx32 (Ctx32.seeded seed))

/-- RESET32 (R141). -/
def execReset32 (s : State) : Result := .next (s.setCtx32 s.ctx32.restart)

/-- WRITE32 (R142). A count above 8 is command error 3 here too, so that no term runs past R75's bound (log 8). -/
def execWrite32 (cnt : BitVec 4) (data : Word64) (s : State) : Result :=
  if countLegal cnt then
    guard32 s
      (match s.ctx32.take cnt (writeBytes cnt data) with
        | some c => .next ((s.setCtx32 c).setLastCnt cnt)
        | none => invariantFault s)
  else .next (raiseCommandError .countRange s)

/-- SUM32 (R143): the context is read, never written (R121). -/
def execSum32 (s : State) : Result :=
  guard32 s (.next (s.setResults ((final32 s.ctx32.h32 s.ctx32.buf32 s.ctx32.tlen32).setWidth 64) 0))

/-- SIZE32 (R144). -/
def execSize32 (s : State) : Result := .next (s.setResults 4 0)

end Sys2Proof.Machine
end

