-- ==== Sys2Proof/Machine/Dispatch.lean ====
section
/-! DEFINITION. One arm per command of the opcode map (30_encoding.md R76). -/

namespace Sys2Proof.Machine

/-- The effect of a decoded command on the engine. -/
def exec (i : Instr) (s : State) : Host.Outcome State Fault Refusal :=
  match i with
  | .nop => Sys2Proof.Machine.execNop s
  | .init32 seed => Sys2Proof.Machine.execInit32 seed s
  | .reset32 => Sys2Proof.Machine.execReset32 s
  | .write32 cnt data => Sys2Proof.Machine.execWrite32 cnt data s
  | .sum32 => Sys2Proof.Machine.execSum32 s
  | .size32 => Sys2Proof.Machine.execSize32 s
  | .init128 seed1 seed2 => Sys2Proof.Machine.execInit128 seed1 seed2 s
  | .init64 seed => Sys2Proof.Machine.execInit64 seed s
  | .reset128 => Sys2Proof.Machine.execReset128 s
  | .write128 cnt data => Sys2Proof.Machine.execWrite128 cnt data s
  | .sum128 => Sys2Proof.Machine.execSum128 s
  | .sum64 => Sys2Proof.Machine.execSum64 s
  | .size128 => Sys2Proof.Machine.execSize128 s
  | .size64 => Sys2Proof.Machine.execSize64 s

end Sys2Proof.Machine
end

