-- ==== Sys2Proof/Machine/Port.lean ====
section
/-! DEFINITION. The command port (30_encoding.md R70, 70_reset_and_hazards.md R230 to R244): accepting and running one command,
and the host's moves. -/

namespace Sys2Proof.Machine

/-- The effect of an accepted command: the decoded command's, or the record of its command error (R77, R203). -/
def runCommand (c : Command) (s : State) : Result :=
  match decode c with
  | .ok i => exec i s
  | .error e => .next (raiseCommandError e s)

/-- The command on the port while the host issues: `P[pc]`; none when `pc` has reached the end of `P` (R37). -/
def State.presented (s : State) : Option Command := s.program[s.pc]?

/-- The host presents `P[pc]`. With `cmd_ready = 1` the engine accepts it: `pc` advances and the command runs as one atomic
step (R236), after `n` reads by the host while it is busy. With `cmd_ready = 0` it is not accepted (R230; log 9); with no
command left the engine waits (R233; log 1). -/
def issueCommand (n : Nat) (s : State) : Result :=
  match s.presented with
  | none => .next s
  | some c => if s.cmdReady then runCommand c (State.readBusy n s.advance) else .next s

/-- The host presents `P[pc]` and drives `rst = 1` before the command ends: the command is abandoned and all state is reset
(R244; log 10). -/
def abortCommand (n : Nat) (s : State) : Result :=
  match s.presented with
  | none => .next (s.driveRst true)
  | some _ => if s.cmdReady then .next ((State.readBusy n s.advance).driveRst true) else .next (s.driveRst true)

/-- One move of the host (R243). -/
def hostMove (m : HostMove) (s : State) : Result :=
  match m with
  | .issue => issueCommand 0 s
  | .issueReading n => issueCommand n s
  | .issueAborted n => abortCommand n s
  | .read => .next s.hostRead
  | .driveRst level => .next (s.driveRst level)

/-- The next move of the host: the head of the schedule, or else issuing the command at `pc` (log 1). -/
def nextMove (s : State) : Result :=
  match s.schedule with
  | [] => issueCommand 0 s
  | m :: rest => hostMove m { s with schedule := rest }

/-- A host program with `c` at index `k`: the command there replaced, or the list extended, over NOPs if need be. -/
def placeCommand (p : List Command) (k : Nat) (c : Command) : List Command :=
  p.take k ++ List.replicate (k - p.length) (encode .nop) ++ c :: p.drop (k + 1)

end Sys2Proof.Machine
end

