-- ==== Sys2Proof/Machine/Step.lean ====
section
/-! DEFINITION. One step of the machine: the host's next move, with the engine's answer to it (R59, R241). -/

namespace Sys2Proof.Machine

/-- One step: one accepted command, or one other interaction of R243 (R241: each accepted command is one step). -/
def step (s : State) : Host.Outcome State Fault Refusal := nextMove s

/-- `s` with the command whose bits are `w` placed where the next step issues from: at `pc` in the host program, no other move
scheduled before it, and `rst` low (log 3). -/
def State.withFetchWord (s : State) (nbits w : Nat) : State :=
  { s with program := placeCommand s.program s.pc (commandOfBits nbits w), schedule := [], rst := false }

end Sys2Proof.Machine
end

