-- ==== Sys2Proof/Machine/Pseudo.lean ====
section
/-! DEFINITION. Sequences of commands, and the pseudo-instructions of 30_encoding.md R81 as the sequences they expand to. -/

namespace Sys2Proof.Machine

/-- The commands of a list run in order, each on the state the one before it left (20_memory.md R59). -/
def execSeq : List Instr → State → Result
  | [], s => .next s
  | i :: is, s => andThen (exec i s) (execSeq is)

/-- `WRITE32 [b0, …]`, the byte-list form (R80). -/
def write32Bytes (bs : List Byte) : Instr := .write32 (BitVec.ofNat 4 bs.length) (packBytes bs)

/-- `WRITE128 [b0, …]`, the byte-list form (R80). -/
def write128Bytes (bs : List Byte) : Instr := .write128 (BitVec.ofNat 4 bs.length) (packBytes bs)

/-- The pieces `s[8j .. min(8j+8, len(s)))` for `j` below `ceil(len(s)/8)` (R81). -/
def pieces8 (s : List Byte) : List (List Byte) :=
  (List.range ((s.length + 7) / 8)).map fun j => (s.drop (8 * j)).take 8

/-- `WRITE64 cnt, data64` (R81). -/
def pseudoWrite64 (cnt : BitVec 4) (data : Word64) : List Instr := [.write128 cnt data]

/-- `RESET64` (R81). -/
def pseudoReset64 : List Instr := [.reset128]

/-- `WRITEBYTES32 s` (R81). -/
def pseudoWriteBytes32 (s : List Byte) : List Instr := (pieces8 s).map write32Bytes

/-- `WRITEBYTES128 s` (R81). -/
def pseudoWriteBytes128 (s : List Byte) : List Instr := (pieces8 s).map write128Bytes

/-- `ONESHOT32 seed, s` (R81). -/
def pseudoOneShot32 (seed : Word32) (s : List Byte) : List Instr := .init32 seed :: pseudoWriteBytes32 s ++ [.sum32]

/-- `ONESHOT64 seed, s` (R81). -/
def pseudoOneShot64 (seed : Word64) (s : List Byte) : List Instr := .init64 seed :: pseudoWriteBytes128 s ++ [.sum64]

/-- `ONESHOT128 seed1, seed2, s` (R81). -/
def pseudoOneShot128 (seed1 seed2 : Word64) (s : List Byte) : List Instr :=
  .init128 seed1 seed2 :: pseudoWriteBytes128 s ++ [.sum128]

end Sys2Proof.Machine
end

