-- ==== Sys2Proof/Machine/Assembler.lean ====
section
/-! DEFINITION. The assembler syntax of 30_encoding.md R80 and R81: a mnemonic in any case and its operands, to commands. -/

namespace Sys2Proof.Machine

/-- An operand as written: a number, or a byte list in brackets (R80). -/
inductive AsmOperand where
  | num (n : Nat)
  | bytes (bs : List Byte)
  deriving DecidableEq, Repr

/-- The number in an operand place, an omitted one being 0 (R80); none where it does not fit its `w` bits (log 13). -/
def numberAt (w : Nat) (ops : List AsmOperand) (k : Nat) : Option (BitVec w) :=
  match ops[k]? with
  | none => some 0
  | some (.num n) => if n < 2 ^ w then some (BitVec.ofNat w n) else none
  | some (.bytes _) => none

/-- The byte list in an operand place. -/
def bytesAt (ops : List AsmOperand) (k : Nat) : Option (List Byte) :=
  match ops[k]? with
  | some (.bytes bs) => some bs
  | some (.num _) => none
  | none => some []

/-- The operands of a WRITE: `cnt, data64`, or a byte list of at most 8 bytes (R80). R80 and R81 give no byte list to WRITE64;
DESIGN CHOICE (log 13): WRITE64 takes one as WRITE128 does. -/
def writeOperands (ops : List AsmOperand) : Option (BitVec 4 × Word64) :=
  match ops with
  | [.bytes bs] => if bs.length ≤ Config.cntMax then some (BitVec.ofNat 4 bs.length, packBytes bs) else none
  | _ => (numberAt 4 ops 0).bind fun cnt => (numberAt 64 ops 1).map fun data => (cnt, data)

/-- The mnemonics of R80, then the pseudo-instructions of R81. -/
inductive Mnemonic where
  | nop | init32 | reset32 | write32 | sum32 | size32
  | init128 | init64 | reset128 | write128 | sum128 | sum64 | size128 | size64
  | write64 | reset64 | writeBytes32 | writeBytes128 | oneShot32 | oneShot64 | oneShot128
  deriving DecidableEq, Repr

/-- The spellings of R80 and R81, in capitals. -/
def mnemonicNames : List (String × Mnemonic) :=
  [("NOP", .nop), ("INIT32", .init32), ("RESET32", .reset32), ("WRITE32", .write32), ("SUM32", .sum32), ("SIZE32", .size32),
   ("INIT128", .init128), ("INIT64", .init64), ("RESET128", .reset128), ("WRITE128", .write128), ("SUM128", .sum128),
   ("SUM64", .sum64), ("SIZE128", .size128), ("SIZE64", .size64), ("WRITE64", .write64), ("RESET64", .reset64),
   ("WRITEBYTES32", .writeBytes32), ("WRITEBYTES128", .writeBytes128), ("ONESHOT32", .oneShot32),
   ("ONESHOT64", .oneShot64), ("ONESHOT128", .oneShot128)]

/-- Reading a mnemonic; its case does not matter (R80). -/
def readMnemonic (name : String) : Option Mnemonic :=
  (mnemonicNames.find? fun p => p.1.toList == name.toList.map Char.toUpper).map Prod.snd

/-- The most operands a mnemonic takes (R80, R81); more are refused (log 13). -/
def Mnemonic.operandLimit : Mnemonic → Nat
  | .nop | .reset32 | .sum32 | .size32 | .reset128 | .sum128 | .sum64 | .size128 | .size64 | .reset64 => 0
  | .init32 | .init64 | .writeBytes32 | .writeBytes128 => 1
  | .init128 | .write32 | .write128 | .write64 | .oneShot32 | .oneShot64 => 2
  | .oneShot128 => 3

/-- The commands one line stands for (R80, R81). DESIGN CHOICE (log 13): the byte-list form of R80 is read on WRITE64 too, where
R81 gives only `WRITE64 cnt, data64`. -/
def Mnemonic.expand (m : Mnemonic) (ops : List AsmOperand) : Option (List Instr) :=
  match m with
  | .nop => some [.nop]
  | .init32 => (numberAt 32 ops 0).map fun seed => [.init32 seed]
  | .reset32 => some [.reset32]
  | .write32 => (writeOperands ops).map fun w => [.write32 w.1 w.2]
  | .sum32 => some [.sum32]
  | .size32 => some [.size32]
  | .init128 => (numberAt 64 ops 0).bind fun a => (numberAt 64 ops 1).map fun b => [.init128 a b]
  | .init64 => (numberAt 64 ops 0).map fun seed => [.init64 seed]
  | .reset128 => some [.reset128]
  | .write128 => (writeOperands ops).map fun w => [.write128 w.1 w.2]
  | .sum128 => some [.sum128]
  | .sum64 => some [.sum64]
  | .size128 => some [.size128]
  | .size64 => some [.size64]
  | .write64 => (writeOperands ops).map fun w => pseudoWrite64 w.1 w.2
  | .reset64 => some pseudoReset64
  | .writeBytes32 => (bytesAt ops 0).map pseudoWriteBytes32
  | .writeBytes128 => (bytesAt ops 0).map pseudoWriteBytes128
  | .oneShot32 => (numberAt 32 ops 0).bind fun seed => (bytesAt ops 1).map (pseudoOneShot32 seed)
  | .oneShot64 => (numberAt 64 ops 0).bind fun seed => (bytesAt ops 1).map (pseudoOneShot64 seed)
  | .oneShot128 =>
    (numberAt 64 ops 0).bind fun a => (numberAt 64 ops 1).bind fun b => (bytesAt ops 2).map (pseudoOneShot128 a b)

/-- One line of assembler text, its mnemonic in any case (R80), to the commands it stands for. -/
def assemble (name : String) (ops : List AsmOperand) : Option (List Command) :=
  match readMnemonic name with
  | none => none
  | some m => if ops.length ≤ m.operandLimit then (m.expand ops).map fun is => is.map encode else none

end Sys2Proof.Machine
end

