-- ==== Sys2Proof/Machine/Reference.lean ====
section
/-! DEFINITION. What claims compare the machine with: little-endian numbers, rotation and shift-xor on natural numbers, and
the reference functions of the streaming laws, the source's one-shot digests (41_digest32.md R145, 42_digest128.md R169). -/

namespace Sys2Proof.Machine

/-- The number a byte sequence stands for, its first byte the least significant (R53). -/
def leNat : List Byte → Nat
  | [] => 0
  | b :: s => b.toNat + 256 * leNat s

/-- The left rotation of an `n`-bit number by `r` places, `0 < r < n`: what leaves at the top comes back at the bottom (R104). -/
def rotNat (n x r : Nat) : Nat := (x * 2 ^ r) % 2 ^ n + x / 2 ^ (n - r)

/-- `x ^ floor(x / 2^s)` (R102, R103). -/
def shiftXorNat (x s : Nat) : Nat := x ^^^ (x / 2 ^ s)

/-- The accumulator after the first `n` blocks of `s`, block `b` being the word `LE32(s, 4b)` (R145). -/
def blocks32 (seed : Word32) (s : List Byte) : Nat → Option Word32
  | 0 => some seed
  | n + 1 =>
    match blocks32 seed s n, le32 s (4 * n) with
    | some h, some k => some (round32 h k)
    | _, _ => none

/-- `MM3_32(seed, s)` (R145); none would mean a block read past the end (R106), which never happens. -/
def mm3_32 (seed : Word32) (s : List Byte) : Option Word32 :=
  (blocks32 seed s (s.length / 4)).map fun h =>
    final32 h (s.drop (4 * (s.length / 4))) (BitVec.ofNat 64 s.length)

/-- The lanes after the first `n` blocks of `s`, block `b` being `s[16b .. 16b+16)` (R169). -/
def blocks128 (seeds : Lanes) (s : List Byte) : Nat → Option Lanes
  | 0 => some seeds
  | n + 1 =>
    match blocks128 seeds s n, le64 s (16 * n), le64 s (16 * n + 8) with
    | some l, some k1, some k2 => some (round128 l k1 k2)
    | _, _, _ => none

/-- `MM3_128(seed1, seed2, s)` (R169); none as in `mm3_32`. -/
def mm3_128 (seed1 seed2 : Word64) (s : List Byte) : Option Lanes :=
  (blocks128 { h1 := seed1, h2 := seed2 } s (s.length / 16)).map fun l =>
    final128 l (s.drop (16 * (s.length / 16))) (BitVec.ofNat 64 s.length)

end Sys2Proof.Machine
end

