-- ==== Sys2Proof/Safety.lean ====
section
/-! DEFINITION. What a good state and a good run are, in the words claims use. -/

namespace Sys2Proof.Machine

/-- The state a result carries on with, if it does. -/
def nextOf (r : Result) : Option State :=
  match r with
  | .next s => some s
  | .fault _ => none
  | .refused _ => none

/-- Both buffers are under their block sizes (10_state.md R40). -/
abbrev buffersOk (s : State) : Prop :=
  s.ctx32.buf32.length < Config.blk32 ∧ s.ctx128.buf128.length < Config.blk128

/-- The buffer holds what the length counter leaves over whole blocks (R23, R24, R27, R28). -/
abbrev countersOk (s : State) : Prop :=
  s.ctx32.tlen32.toNat % Config.blk32 = s.ctx32.buf32.length % Config.blk32 ∧
    s.ctx128.tlen128.toNat % Config.blk128 = s.ctx128.buf128.length % Config.blk128

/-- STATUS holds legal values (R30, R32, R33): ERR says whether a code is held, the code is not 15, LASTCNT is at most 8. -/
abbrev statusOk (st : Status) : Prop :=
  st.err = st.ecode.isSome ∧ st.ecode ≠ some .invariant ∧ st.lastCnt.toNat ≤ Config.cntMax

/-- The engine's own state is the reset state (70_reset_and_hazards.md R231). -/
abbrev engineReset (s : State) : Prop :=
  s.ctx32 = Ctx32.reset ∧ s.ctx128 = Ctx128.reset ∧ s.res0 = 0 ∧ s.res1 = 0 ∧ s.status = Status.reset

/-- The invariant every step keeps: buffers, counters and STATUS legal, `pc` within the host program (R37), and every piece of
state at its reset value while `rst = 1` (R230). -/
abbrev Inv (s : State) : Prop :=
  buffersOk s ∧ countersOk s ∧ statusOk s.status ∧ s.pc ≤ s.program.length ∧ (s.rst = true → engineReset s)

/-- The run of the host program has ended (R242). -/
abbrev runEnded (s : State) : Prop := s.pc = s.program.length ∧ s.cmdReady = true

/-- A recorded fault (60_exceptions.md R217): a claim about a run takes its absence as a premise, or states the error. -/
abbrev faultedRun (s : State) : Prop := s.status.err = true

/-- The next move of the host drives `rst` high, releases it, or abandons a command: all state goes to its reset value. -/
def resetsNext (s : State) : Bool :=
  match s.schedule with
  | [] => false
  | .driveRst level :: _ => s.rst || level
  | .issueAborted _ :: _ => true
  | .issue :: _ => false
  | .issueReading _ :: _ => false
  | .read :: _ => false

/-- The command the next step accepts (R236): the host presents it and `cmd_ready` is 1. One that is then abandoned (R244) was
accepted too (log 10); a read or a level on `rst` presents none. -/
def acceptedNext (s : State) : Option Command :=
  match s.schedule with
  | [] | .issue :: _ | .issueReading _ :: _ | .issueAborted _ :: _ => if s.cmdReady then s.presented else none
  | .read :: _ | .driveRst _ :: _ => none

/-- The accepted command as an instruction; none where the next step accepts none, or one with a command error. -/
def acceptedInstr (s : State) : Option Instr := (acceptedNext s).bind fun c => (decode c).toOption

/-- The count a command leaves in LASTCNT (R33); none for a command that leaves LASTCNT alone. -/
def countWritten : Instr → Option (BitVec 4)
  | .write32 cnt _ | .write128 cnt _ => some cnt
  | .nop | .init32 _ | .reset32 | .sum32 | .size32 | .init128 _ _ | .init64 _ | .reset128 | .sum128 | .sum64 | .size128
  | .size64 => none

/-- The commands that write CTX32 (R22, R146). -/
def writesCtx32 : Instr → Bool
  | .init32 _ | .reset32 | .write32 _ _ => true
  | .nop | .sum32 | .size32 | .init128 _ _ | .init64 _ | .reset128 | .write128 _ _ | .sum128 | .sum64 | .size128
  | .size64 => false

/-- The commands to CTX32 (R76's column "context"). -/
def usesCtx32 : Instr → Bool
  | .init32 _ | .reset32 | .write32 _ _ | .sum32 => true
  | .nop | .size32 | .init128 _ _ | .init64 _ | .reset128 | .write128 _ _ | .sum128 | .sum64 | .size128
  | .size64 => false

/-- The commands that write CTX128 (R26, R170). -/
def writesCtx128 : Instr → Bool
  | .init128 _ _ | .init64 _ | .reset128 | .write128 _ _ => true
  | .nop | .init32 _ | .reset32 | .write32 _ _ | .sum32 | .size32 | .sum128 | .sum64 | .size128 | .size64 => false

/-- The commands to CTX128 (R76's column "context"). -/
def usesCtx128 : Instr → Bool
  | .init128 _ _ | .init64 _ | .reset128 | .write128 _ _ | .sum128 | .sum64 => true
  | .nop | .init32 _ | .reset32 | .write32 _ _ | .sum32 | .size32 | .size128 | .size64 => false

/-- The SUM and SIZE commands, which alone write the result registers (R29). -/
def writesResults : Instr → Bool
  | .sum32 | .size32 | .sum128 | .sum64 | .size128 | .size64 => true
  | .nop | .init32 _ | .reset32 | .write32 _ _ | .init128 _ _ | .init64 _ | .reset128 | .write128 _ _ => false

/-- The command does not decode, and all it does is record error `e` (R203). -/
abbrev onlyRecords (e : CommandError) (c : Command) : Prop :=
  decode c = .error e ∧
    ∀ s : State,
      runCommand c s =
        .next { s with
                status :=
                  { err := true, ecode := if s.status.err = true then s.status.ecode else some e,
                    lastCnt := s.status.lastCnt } }

/-- The command word of an operation without a count is its opcode alone; any other word with that opcode has a reserved field
that is not 0, and only records error 2 (the "Exceptions" line of R140, R141, R143, R144, R160 to R162, R164 to R167, R190). -/
abbrev onlyBareWord (op : Nat) : Prop :=
  ∀ c : Command, c.cmd.toNat % 256 = op → c.cmd.toNat ≠ op → onlyRecords .reservedField c

/-- The "Exceptions" line of R142 and R163: error 2 for a reserved field that is not 0, else error 3 for a count above 8, and
nothing but its record. -/
abbrev onlyCountedWords (op : Nat) : Prop :=
  ∀ c : Command, c.cmd.toNat % 256 = op →
    (c.cmd.toNat / 4096 ≠ 0 → onlyRecords .reservedField c) ∧
      (c.cmd.toNat / 4096 = 0 → 8 < c.cmd.toNat / 256 % 16 → onlyRecords .countRange c)

end Sys2Proof.Machine
end

