-- ==== Sys2Proof/Certificates/Slice0/Obligations.lean ====
section
/-! DEFINITION. The statements for the provers. Each docstring names the rule of spec/ it formalises, or says what it rests on. -/

open Sys2Proof Sys2Proof.Machine

/-! ### Encoding and decoding -/

/-- Encoding a well-formed instruction and decoding the triple gives it back, for every operand value (R71 to R77). -/
def Obligations.DecodeInvertsEncode : Prop :=
  ∀ i : Instr, i.wf = true → decode (encode i) = .ok i

/-- The other direction: what decodes is well formed, and its encoding has the command word that was decoded. -/
def Obligations.DecodedWordsAreCanonical : Prop :=
  ∀ (c : Command) (i : Instr), decode c = .ok i → i.wf = true ∧ (encode i).cmd = c.cmd

/-- R77: decoding is total, and its checks come in R77's order. -/
def Obligations.DecodeChecksInOrder : Prop :=
  ∀ c : Command,
    (c.cmd.toNat % 256 ∉ [0x00, 0x01, 0x02, 0x03, 0x04, 0x05, 0x10, 0x11, 0x12, 0x13, 0x14, 0x15, 0x16, 0x17] →
        decode c = .error .illegalOpcode) ∧
      (c.cmd.toNat % 256 ∈ [0x00, 0x01, 0x02, 0x03, 0x04, 0x05, 0x10, 0x11, 0x12, 0x13, 0x14, 0x15, 0x16, 0x17] →
        (c.cmd.toNat / 4096 ≠ 0 → decode c = .error .reservedField) ∧
          (c.cmd.toNat / 4096 = 0 →
            (c.cmd.toNat % 256 ∉ [0x03, 0x13] → c.cmd.toNat / 256 % 16 ≠ 0 → decode c = .error .reservedField) ∧
              (c.cmd.toNat % 256 ∈ [0x03, 0x13] → 8 < c.cmd.toNat / 256 % 16 → decode c = .error .countRange) ∧
                ((c.cmd.toNat % 256 ∈ [0x03, 0x13] → c.cmd.toNat / 256 % 16 ≤ 8) →
                  (c.cmd.toNat % 256 ∉ [0x03, 0x13] → c.cmd.toNat / 256 % 16 = 0) →
                    ∃ i, decode c = .ok i ∧ i.opcode.toNat = c.cmd.toNat % 256 ∧
                      i.countBits.toNat = c.cmd.toNat / 256 % 16)))

/-- R76: a command word decodes to the command of the one match and mask row it meets, and every decoded word meets its row. -/
def Obligations.DecodeMeetsTheOpcodeTable : Prop :=
  ∀ c : Command,
    (∀ r ∈ opcodeRows, r.selects c.cmd = true → ∃ i, decode c = .ok i ∧ i.mnemonic = r.mnemonic) ∧
      ∀ i, decode c = .ok i → ∃ r ∈ opcodeRows, r.selects c.cmd = true ∧ i.mnemonic = r.mnemonic

/-- R73 and R75: each decoded operand is exactly the bits the rules name, taken as unsigned numbers; every other command has
no operand. -/
def Obligations.DecodeReadsTheListedOperands : Prop :=
  ∀ (c : Command) (i : Instr), decode c = .ok i →
    match i with
    | .init32 seed => seed.toNat = c.opa.toNat % 2 ^ 32
    | .init64 seed => seed = c.opa
    | .init128 seed1 seed2 => seed1 = c.opa ∧ seed2 = c.opb
    | .write32 cnt data | .write128 cnt data =>
      cnt.toNat = c.cmd.toNat / 256 % 16 ∧ cnt.toNat ≤ 8 ∧
        writeBytes cnt data = (List.range cnt.toNat).map fun k => BitVec.ofNat 8 (c.opa.toNat / 256 ^ k)
    | .nop | .reset32 | .sum32 | .size32 | .reset128 | .sum128 | .sum64 | .size128 | .size64 => True

/-- A few command words written out from R76 decode to their commands (a sanity check). -/
def Obligations.KnownWordsDecode : Prop :=
  decode ⟨0x00000000, 0, 0⟩ = .ok .nop ∧
    decode ⟨0x00000001, 0xDEADBEEF0000002A, 0⟩ = .ok (.init32 0x2A) ∧
    decode ⟨0x00000803, 0x006C006C00650048, 0⟩ = .ok (.write32 8 0x006C006C00650048) ∧
    decode ⟨0x00000010, 1, 2⟩ = .ok (.init128 1 2) ∧
    decode ⟨0x00000213, 0x21, 0⟩ = .ok (.write128 2 0x21) ∧
    decode ⟨0x00000015, 0, 0⟩ = .ok .sum64 ∧
    decode ⟨0x00000017, 0, 0⟩ = .ok .size64

/-- R74: two triples with the same command word that agree on the operand bits R73 lists for it have the same effect on every
state. -/
def Obligations.IgnoredOperandBitsHaveNoEffect : Prop :=
  ∀ (c c' : Command) (s : State), c.cmd = c'.cmd →
    (c.cmd.toNat % 256 = 0x01 → c.opa.toNat % 2 ^ 32 = c'.opa.toNat % 2 ^ 32) →
    (c.cmd.toNat % 256 = 0x10 → c.opa = c'.opa ∧ c.opb = c'.opb) →
    (c.cmd.toNat % 256 = 0x11 → c.opa = c'.opa) →
    (c.cmd.toNat % 256 = 0x03 ∨ c.cmd.toNat % 256 = 0x13 →
      c.opa.toNat % 2 ^ (8 * (c.cmd.toNat / 256 % 16)) = c'.opa.toNat % 2 ^ (8 * (c.cmd.toNat / 256 % 16))) →
    runCommand c s = runCommand c' s

/-- R80: the assembler line of every well-formed command, its operands written as numbers, gives the command's triple; and a
WRITE written with a byte list of at most 8 bytes is the WRITE of their little-endian number. -/
def Obligations.AssemblerGivesEachCommand : Prop :=
  (∀ i : Instr, i.wf = true →
      assemble i.mnemonic
          (match i with
            | .init32 seed => [.num seed.toNat]
            | .init64 seed => [.num seed.toNat]
            | .init128 seed1 seed2 => [.num seed1.toNat, .num seed2.toNat]
            | .write32 cnt data | .write128 cnt data => [.num cnt.toNat, .num data.toNat]
            | .nop | .reset32 | .sum32 | .size32 | .reset128 | .sum128 | .sum64 | .size128 | .size64 => []) =
        some [encode i]) ∧
    ∀ bs : List Byte, bs.length ≤ 8 →
      assemble "WRITE32" [.bytes bs] =
          some [encode (.write32 (BitVec.ofNat 4 bs.length) (BitVec.ofNat 64 (leNat bs)))] ∧
        assemble "WRITE128" [.bytes bs] =
          some [encode (.write128 (BitVec.ofNat 4 bs.length) (BitVec.ofNat 64 (leNat bs)))]

/-! ### One step: the command port and the host's moves -/

/-- When the command at `pc` decodes to `i`, `rst` is low and the host issues it, the step is `exec i` at the state with `pc`
moved on (R37, R236). The schedule is the model's form of the host (log 1). -/
def Obligations.StepRunsTheDecodedCommand : Prop :=
  ∀ (s : State) (c : Command) (i : Instr), s.rst = false → s.program[s.pc]? = some c → decode c = .ok i →
    (s.schedule = [] → step s = exec i { s with pc := s.pc + 1 }) ∧
      ∀ rest, s.schedule = .issue :: rest → step s = exec i { s with pc := s.pc + 1, schedule := rest }

/-- R203: a command that raises a decode error is accepted, records its code if none is recorded, sets ERR, and changes nothing
else; and a command that raises code 15 leaves the state before it, apart from STATUS. -/
def Obligations.CommandErrorsOnlyRecord : Prop :=
  (∀ (s : State) (c : Command) (e : CommandError), s.rst = false → s.schedule = [] → s.program[s.pc]? = some c →
      decode c = .error e →
      step s =
        .next { s with
                pc := s.pc + 1,
                status :=
                  { err := true, ecode := if s.status.err = true then s.status.ecode else some e,
                    lastCnt := s.status.lastCnt } }) ∧
    ∀ (i : Instr) (s : State) (f : Fault), exec i s = .fault f →
      f =
        .invariant
          { s with
            status :=
              { err := true, ecode := if s.status.err = true then s.status.ecode else some .invariant,
                lastCnt := s.status.lastCnt } }

/-- With no command left to issue the engine waits: it executes nothing of its own (R233). The waiting step is the model's
choice (log 1). -/
def Obligations.EngineWaitsForCommands : Prop :=
  ∀ s : State, s.schedule = [] → s.program.length ≤ s.pc → step s = .next s

/-- While `rst = 1` no presented command is accepted and `cmd_ready` is 0; on release every piece of state has its reset value
and `cmd_ready` is 1 (R230). A command aborted by reset leaves the engine at its reset values (R244), and host reads before the
abort give free views, the command then executing and `cmd_ready` being 0 (R238). The rest is the model's choice: that release
and readiness are one step is log 4; that the command stays presented is log 9; that the `n` reads of an abort are part of its
move, and are made exactly when the command was accepted, is log 6; that reset leaves the host's side alone (a driven level keeps
`pc`, the program, what the host has read and the draw counter) and that an accepted command, though aborted, has moved `pc` by
one is log 10. -/
def Obligations.ResetHoldsOffCommands : Prop :=
  (∀ s : State, s.rst = true →
      s.cmdReady = false ∧ (s.schedule = [] → step s = .next s) ∧
        (∀ rest, s.schedule = .issue :: rest → step s = .next { s with schedule := rest }) ∧
        (∀ n rest, s.schedule = .issueReading n :: rest → step s = .next { s with schedule := rest }) ∧
        ∀ rest, s.schedule = .driveRst false :: rest →
          ∃ t, step s = .next t ∧ t.cmdReady = true ∧ engineReset t ∧ t.pc = s.pc ∧ t.program = s.program) ∧
    (∀ (s : State) (level : Bool) (rest : List HostMove), s.schedule = .driveRst level :: rest →
      ∃ t, step s = .next t ∧ t.rst = level ∧ t.schedule = rest ∧ t.pc = s.pc ∧ t.program = s.program ∧
        t.reads = s.reads ∧ t.draws = s.draws) ∧
    ∀ (s : State) (n : Nat) (rest : List HostMove), s.schedule = .issueAborted n :: rest →
      (s.rst = false → s.pc < s.program.length →
          ∃ t, step s = .next t ∧ engineReset t ∧ t.rst = true ∧ t.schedule = rest ∧ t.pc = s.pc + 1 ∧
            t.program = s.program ∧ t.reads = s.reads ++ (List.range' s.draws n).map freeView ∧ t.draws = s.draws + n) ∧
        (s.rst = true ∨ s.program.length ≤ s.pc →
          ∃ t, step s = .next t ∧ engineReset t ∧ t.rst = true ∧ t.schedule = rest ∧ t.pc = s.pc ∧
            t.program = s.program ∧ t.reads = s.reads ∧ t.draws = s.draws)

/-- R231: hardware reset puts every piece of the engine's state at the value of R231's table, from any state. -/
def Obligations.HardwareResetSetsEveryValue : Prop :=
  ∀ (s : State) (rest : List HostMove), s.schedule = .driveRst true :: rest →
    ∃ t, step s = .next t ∧ t.ctx32.seed32 = 0 ∧ t.ctx32.h32 = 0 ∧ t.ctx32.buf32 = [] ∧ t.ctx32.tlen32 = 0 ∧
      t.ctx128.seed1 = 0 ∧ t.ctx128.seed2 = 0 ∧ t.ctx128.h1 = 0 ∧ t.ctx128.h2 = 0 ∧ t.ctx128.buf128 = [] ∧
      t.ctx128.tlen128 = 0 ∧ t.res0 = 0 ∧ t.res1 = 0 ∧ t.status.word = 0 ∧ t.status.err = false ∧
      t.status.ecodeBits = 0 ∧ t.status.lastCnt = 0

/-- R244: `rst = 1` while a command executes abandons it, whatever it was, and all state takes the reset values; two aborts of
two commands on two engines cannot be told apart by the engine's state. -/
def Obligations.AbortedCommandLeavesNoTrace : Prop :=
  ∀ (s : State) (c : Command) (n : Nat) (rest : List HostMove), s.rst = false → s.program[s.pc]? = some c →
    s.schedule = .issueAborted n :: rest →
    ∃ t, step s = .next t ∧ t.ctx32 = State.reset.ctx32 ∧ t.ctx128 = State.reset.ctx128 ∧ t.res0 = State.reset.res0 ∧
      t.res1 = State.reset.res1 ∧ t.status = State.reset.status

/-- A host read while `cmd_ready = 1` gives RES0, RES1 and STATUS and changes nothing else (R58, R238); while `cmd_ready = 0`
it gives free values, whatever they are (R238; logs 5 and 6). -/
def Obligations.HostReadsShowTheRegisters : Prop :=
  ∀ (s : State) (rest : List HostMove), s.schedule = .read :: rest →
    (s.rst = false →
        step s =
          .next { s with
                  schedule := rest,
                  reads := s.reads ++ [{ res0 := s.res0, res1 := s.res1, status := s.status.word }] }) ∧
      (s.rst = true →
        step s =
          .next { s with schedule := rest, reads := s.reads ++ [freeView s.draws], draws := s.draws + 1 })

/-- Reading while a command executes disturbs nothing: `n` reads during an accepted command give `n` free views, and the step ends
in the same state but for what the host has read; a command that is not accepted is not read either (R57, R238; log 6). -/
def Obligations.BusyReadsDisturbNothing : Prop :=
  ∀ (s t : State) (n : Nat) (rest : List HostMove), step { s with schedule := .issue :: rest } = .next t →
    (s.rst = false → s.pc < s.program.length →
        step { s with schedule := .issueReading n :: rest } =
          .next { t with
                  reads := t.reads ++ (List.range' s.draws n).map freeView, draws := t.draws + n }) ∧
      (s.rst = true ∨ s.program.length ≤ s.pc → step { s with schedule := .issueReading n :: rest } = .next t)

/-- The commands of a host program take effect one at a time, in order, each on what the one before it left (R59), and the run
ends when `pc` has passed the last of them (R37, R242). The statement is over any list of well-formed commands and any state. -/
def Obligations.HostProgramRunsInOrder : Prop :=
  ∀ (is : List Instr) (s t : State), s.rst = false → s.schedule = [] → (∀ i ∈ is, i.wf = true) →
    s.program.drop s.pc = is.map encode → s.pc ≤ s.program.length → execSeq is s = .next t →
    Sys2Proof.core.run is.length s = .next { t with pc := s.pc + is.length } ∧
      runEnded { t with pc := s.pc + is.length }

/-! ### What each command does -/

/-- R190: NOP writes no state. -/
def Obligations.NopWritesNothing : Prop :=
  (∀ opa opb, decode ⟨0x00000000, opa, opb⟩ = .ok .nop) ∧ onlyBareWord 0x00 ∧ ∀ s : State, exec .nop s = .next s

/-- R140 and R141: INIT32 loads a seed and seeds CTX32; RESET32 returns CTX32 to its own seed. Nothing else changes. -/
def Obligations.SeedingCommands32 : Prop :=
  (∀ opa opb, decode ⟨0x00000001, opa, opb⟩ = .ok (.init32 (opa.setWidth 32))) ∧ onlyBareWord 0x01 ∧
    (∀ (seed : Word32) (s : State),
      exec (.init32 seed) s = .next { s with ctx32 := { seed32 := seed, h32 := seed, buf32 := [], tlen32 := 0 } }) ∧
    (∀ opa opb, decode ⟨0x00000002, opa, opb⟩ = .ok .reset32) ∧ onlyBareWord 0x02 ∧
    ∀ s : State,
      exec .reset32 s =
        .next { s with
                ctx32 := { seed32 := s.ctx32.seed32, h32 := s.ctx32.seed32, buf32 := [], tlen32 := 0 } }

/-- R160, R161 and R162: INIT128 and INIT64 load seeds and seed CTX128; RESET128 returns CTX128 to its own seeds. Nothing else
changes. -/
def Obligations.SeedingCommands128 : Prop :=
  (∀ opa opb, decode ⟨0x00000010, opa, opb⟩ = .ok (.init128 opa opb)) ∧ onlyBareWord 0x10 ∧
    (∀ (a b : Word64) (s : State),
      exec (.init128 a b) s =
        .next { s with ctx128 := { seed1 := a, seed2 := b, h1 := a, h2 := b, buf128 := [], tlen128 := 0 } }) ∧
    (∀ opa opb, decode ⟨0x00000011, opa, opb⟩ = .ok (.init64 opa)) ∧ onlyBareWord 0x11 ∧
    (∀ (a : Word64) (s : State),
      exec (.init64 a) s =
        .next { s with ctx128 := { seed1 := a, seed2 := a, h1 := a, h2 := a, buf128 := [], tlen128 := 0 } }) ∧
    (∀ opa opb, decode ⟨0x00000012, opa, opb⟩ = .ok .reset128) ∧ onlyBareWord 0x12 ∧
    ∀ s : State,
      exec .reset128 s =
        .next { s with
                ctx128 :=
                  { seed1 := s.ctx128.seed1, seed2 := s.ctx128.seed2, h1 := s.ctx128.seed1, h2 := s.ctx128.seed2,
                    buf128 := [], tlen128 := 0 } }

/-- R142: WRITE32 runs R142's loop: each write byte is appended to the buffer, and a buffer of 4 bytes is mixed into H32 and
emptied. It moves TLEN32 by the count modulo 2^64, leaves the count in LASTCNT, and changes nothing else. The premise on the
buffer is the invariant R40. -/
def Obligations.Write32RunsTheByteLoop : Prop :=
  (∀ (cnt : BitVec 4) (opa opb : Word64), cnt.toNat ≤ 8 →
      decode ⟨BitVec.ofNat 32 (3 + 256 * cnt.toNat), opa, opb⟩ = .ok (.write32 cnt opa)) ∧
    onlyCountedWords 0x03 ∧
    ∀ (cnt : BitVec 4) (data : Word64) (s : State), cnt.toNat ≤ 8 → s.ctx32.buf32.length < 4 →
      ∃ h buf,
        (List.range cnt.toNat).foldl
            (fun st i => st.bind fun p =>
              let b := p.2 ++ [BitVec.ofNat 8 (data.toNat / 256 ^ i)]
              if b.length = 4 then (le32 b 0).map fun k => (round32 p.1 k, []) else some (p.1, b))
            (some (s.ctx32.h32, s.ctx32.buf32)) =
          some (h, buf) ∧
        buf.length ≤ 3 ∧
        exec (.write32 cnt data) s =
          .next { s with
                  ctx32 :=
                    { seed32 := s.ctx32.seed32, h32 := h, buf32 := buf,
                      tlen32 := BitVec.ofNat 64 (s.ctx32.tlen32.toNat + cnt.toNat) },
                  status := { err := s.status.err, ecode := s.status.ecode, lastCnt := cnt } }

/-- R163: the same for WRITE128, whose 16-byte buffer is mixed into the lane pair. -/
def Obligations.Write128RunsTheByteLoop : Prop :=
  (∀ (cnt : BitVec 4) (opa opb : Word64), cnt.toNat ≤ 8 →
      decode ⟨BitVec.ofNat 32 (0x13 + 256 * cnt.toNat), opa, opb⟩ = .ok (.write128 cnt opa)) ∧
    onlyCountedWords 0x13 ∧
    ∀ (cnt : BitVec 4) (data : Word64) (s : State), cnt.toNat ≤ 8 → s.ctx128.buf128.length < 16 →
      ∃ l buf,
        (List.range cnt.toNat).foldl
            (fun st i => st.bind fun p =>
              let b := p.2 ++ [BitVec.ofNat 8 (data.toNat / 256 ^ i)]
              if b.length = 16 then
                (le64 b 0).bind fun k1 => (le64 b 8).map fun k2 => (round128 p.1 k1 k2, [])
              else some (p.1, b))
            (some ({ h1 := s.ctx128.h1, h2 := s.ctx128.h2 }, s.ctx128.buf128)) =
          some (l, buf) ∧
        buf.length ≤ 15 ∧
        exec (.write128 cnt data) s =
          .next { s with
                  ctx128 :=
                    { seed1 := s.ctx128.seed1, seed2 := s.ctx128.seed2, h1 := l.h1, h2 := l.h2, buf128 := buf,
                      tlen128 := BitVec.ofNat 64 (s.ctx128.tlen128.toNat + cnt.toNat) },
                  status := { err := s.status.err, ecode := s.status.ecode, lastCnt := cnt } }

/-- The block form of WRITE32, which R142 (marked derived there) calls equal to its loop: it mixes, in stream order, every block
that buffer and write bytes complete, and keeps the rest buffered. -/
def Obligations.Write32MixesWholeBlocks : Prop :=
  ∀ (cnt : BitVec 4) (data : Word64) (s : State), cnt.toNat ≤ 8 → s.ctx32.buf32.length < 4 →
    ∀ stream, stream = s.ctx32.buf32 ++ (List.range cnt.toNat).map (fun k => BitVec.ofNat 8 (data.toNat / 256 ^ k)) →
      ∃ h, blocks32 s.ctx32.h32 stream (stream.length / 4) = some h ∧
        exec (.write32 cnt data) s =
          .next { s with
                  ctx32 :=
                    { seed32 := s.ctx32.seed32, h32 := h, buf32 := stream.drop (4 * (stream.length / 4)),
                      tlen32 := BitVec.ofNat 64 (s.ctx32.tlen32.toNat + cnt.toNat) },
                  status := { err := s.status.err, ecode := s.status.ecode, lastCnt := cnt } }

/-- The block form of WRITE128, with 16-byte blocks and two lanes: the source's form that R163 quotes. -/
def Obligations.Write128MixesWholeBlocks : Prop :=
  ∀ (cnt : BitVec 4) (data : Word64) (s : State), cnt.toNat ≤ 8 → s.ctx128.buf128.length < 16 →
    ∀ stream, stream = s.ctx128.buf128 ++ (List.range cnt.toNat).map (fun k => BitVec.ofNat 8 (data.toNat / 256 ^ k)) →
      ∃ l, blocks128 { h1 := s.ctx128.h1, h2 := s.ctx128.h2 } stream (stream.length / 16) = some l ∧
        exec (.write128 cnt data) s =
          .next { s with
                  ctx128 :=
                    { seed1 := s.ctx128.seed1, seed2 := s.ctx128.seed2, h1 := l.h1, h2 := l.h2,
                      buf128 := stream.drop (16 * (stream.length / 16)),
                      tlen128 := BitVec.ofNat 64 (s.ctx128.tlen128.toNat + cnt.toNat) },
                  status := { err := s.status.err, ecode := s.status.ecode, lastCnt := cnt } }

/-- R142 and R163, corner case: a WRITE of no bytes changes only LASTCNT, whatever its data. -/
def Obligations.EmptyWriteOnlySetsLastCount : Prop :=
  ∀ (data : Word64) (s : State), buffersOk s →
    exec (.write32 0 data) s = .next { s with status := { s.status with lastCnt := 0 } } ∧
      exec (.write128 0 data) s = .next { s with status := { s.status with lastCnt := 0 } }

/-- R143: SUM32 writes the finalized digest to RES0, zero-extended, and 0 to RES1, and changes nothing else. -/
def Obligations.Sum32WritesTheDigest : Prop :=
  (∀ opa opb, decode ⟨0x00000004, opa, opb⟩ = .ok .sum32) ∧ onlyBareWord 0x04 ∧
    ∀ s : State, s.ctx32.buf32.length < 4 →
      exec .sum32 s =
        .next { s with
                res0 := BitVec.ofNat 64 (final32 s.ctx32.h32 s.ctx32.buf32 s.ctx32.tlen32).toNat, res1 := 0 }

/-- R164 and R165: SUM128 writes the two finalized lanes, SUM64 lane `h1` and 0; neither changes anything else. -/
def Obligations.Sum128AndSum64WriteTheLanes : Prop :=
  (∀ opa opb, decode ⟨0x00000014, opa, opb⟩ = .ok .sum128) ∧ onlyBareWord 0x14 ∧
    (∀ opa opb, decode ⟨0x00000015, opa, opb⟩ = .ok .sum64) ∧ onlyBareWord 0x15 ∧
    ∀ s : State, s.ctx128.buf128.length < 16 →
      ∀ d, d = final128 { h1 := s.ctx128.h1, h2 := s.ctx128.h2 } s.ctx128.buf128 s.ctx128.tlen128 →
        exec .sum128 s = .next { s with res0 := d.h1, res1 := d.h2 } ∧
          exec .sum64 s = .next { s with res0 := d.h1, res1 := 0 }

/-- R144, R166 and R167: SIZE32, SIZE128 and SIZE64 write 4, 16 and 8 to RES0 and 0 to RES1, in any state, and nothing else. -/
def Obligations.SizeCommandsReportTheWidth : Prop :=
  (∀ opa opb, decode ⟨0x00000005, opa, opb⟩ = .ok .size32) ∧ onlyBareWord 0x05 ∧
    (∀ opa opb, decode ⟨0x00000016, opa, opb⟩ = .ok .size128) ∧ onlyBareWord 0x16 ∧
    (∀ opa opb, decode ⟨0x00000017, opa, opb⟩ = .ok .size64) ∧ onlyBareWord 0x17 ∧
    ∀ s : State,
      exec .size32 s = .next { s with res0 := 4, res1 := 0 } ∧
        exec .size128 s = .next { s with res0 := 16, res1 := 0 } ∧ exec .size64 s = .next { s with res0 := 8, res1 := 0 }

/-- The commands that read a buffer stop with the permanent fault on a buffer at or over its block size (R40, R201, R217); that
these five check is the model's choice (log 7). -/
def Obligations.OverfullBufferIsThePermanentFault : Prop :=
  ∀ (s : State) (cnt : BitVec 4) (data : Word64), cnt.toNat ≤ 8 →
    (4 ≤ s.ctx32.buf32.length →
        ∀ i ∈ [Instr.write32 cnt data, .sum32], exec i s = .fault (.invariant (raiseCommandError .invariant s))) ∧
      (16 ≤ s.ctx128.buf128.length →
        ∀ i ∈ [Instr.write128 cnt data, .sum128, .sum64],
          exec i s = .fault (.invariant (raiseCommandError .invariant s)))

/-- A WRITE term whose count is above 8, which no command word decodes to, records command error 3 like the word it would come
from, in any state; that a term answers as its word does is the model's choice (log 8). -/
def Obligations.IllFormedCountsRecordTheError : Prop :=
  ∀ (cnt : BitVec 4) (data : Word64) (s : State), 8 < cnt.toNat →
    ∀ i ∈ [Instr.write32 cnt data, .write128 cnt data],
      i.wf = false ∧
        exec i s =
          .next { s with
                  status :=
                    { err := true, ecode := if s.status.err = true then s.status.ecode else some .countRange,
                      lastCnt := s.status.lastCnt } }

/-! ### Status -/

/-- R34: STATUS bits 3:1 and 31:12 read as 0 in every state. -/
def Obligations.ReservedStatusBitsReadZero : Prop :=
  ∀ st : Status, st.word.toNat / 2 % 8 = 0 ∧ st.word.toNat / 4096 = 0

/-- The fields of the STATUS word stand where R30's table puts them, ECODE holds R201's codes, and only 0, 1, 2, 3 and 15. -/
def Obligations.StatusWordHoldsItsFields : Prop :=
  ∀ st : Status,
    st.word.toNat % 2 = st.err.toNat ∧ st.word.toNat / 256 % 16 = st.lastCnt.toNat ∧
      st.word.toNat / 16 % 16 =
        (match st.ecode with
          | none => 0
          | some .illegalOpcode => 1
          | some .reservedField => 2
          | some .countRange => 3
          | some .invariant => 15)

/-- R205: ERR and ECODE are sticky. Every step that is no hardware reset keeps a set ERR and the code it holds, and hardware
reset clears both. -/
def Obligations.RecordedErrorIsSticky : Prop :=
  (∀ s t : State, step s = .next t → resetsNext s = false → s.status.err = true →
      t.status.err = true ∧ t.status.ecode = s.status.ecode) ∧
    ∀ s : State, resetsNext s = true → ∃ t, step s = .next t ∧ t.status.err = false ∧ t.status.ecode = none

/-- R206: a command error does not stop the engine, and later commands execute exactly as if ERR were 0: whatever ERR and the
recorded code are, a command has the same effect on everything else, and its result keeps them. -/
def Obligations.RecordedErrorDoesNotChangeExecution : Prop :=
  (∀ (c : Command) (e : CommandError) (s : State), decode c = .error e → ∃ t, runCommand c s = .next t) ∧
    ∀ (c : Command) (i : Instr) (s t : State) (e : Bool) (x : Option CommandError), decode c = .ok i →
      runCommand c s = .next t →
      runCommand c { s with status := { s.status with err := e, ecode := x } } =
        .next { t with status := { t.status with err := e, ecode := x } }

/-- R32: only a command error writes ECODE, only when ERR was 0, and then with that error's code; it reads as 0, 1, 2, 3 or 15. -/
def Obligations.ErrorCodeHoldsTheFirstError : Prop :=
  (∀ s t : State, step s = .next t → resetsNext s = false →
      t.status.ecode = s.status.ecode ∨
        s.status.err = false ∧ t.status.err = true ∧
          ∃ c e, acceptedNext s = some c ∧ decode c = .error e ∧ t.status.ecode = some e) ∧
    (∀ (c : Command) (e : CommandError) (s t : State), decode c = .error e → runCommand c s = .next t →
      t.status.ecode = if s.status.err = true then s.status.ecode else some e) ∧
    ∀ st : Status, st.ecodeBits.toNat ∈ [0, 1, 2, 3, 15]

/-- R33: LASTCNT is written by every accepted WRITE with its count, 0 to 8, and by no other command, no command error, no read,
no wait and no level on `rst` that is no hardware reset. Hardware reset clears it (R231). -/
def Obligations.LastCountWrittenByWrites : Prop :=
  (∀ (c : Command) (i : Instr) (s t : State), decode c = .ok i → runCommand c s = .next t →
      match i with
      | .write32 cnt _ | .write128 cnt _ => t.status.lastCnt = cnt ∧ cnt.toNat ≤ 8
      | .nop | .init32 _ | .reset32 | .sum32 | .size32 | .init128 _ _ | .init64 _ | .reset128 | .sum128 | .sum64
      | .size128 | .size64 => t.status.lastCnt = s.status.lastCnt) ∧
    (∀ (c : Command) (e : CommandError) (s t : State), decode c = .error e → runCommand c s = .next t →
      t.status.lastCnt = s.status.lastCnt) ∧
    ∀ s t : State, step s = .next t → resetsNext s = false →
      t.status.lastCnt = ((acceptedInstr s).bind countWritten).getD s.status.lastCnt

/-- R209: a command within its bounds never raises a command error, whatever its operand values; only the command word can be
wrong. The premise on the buffers is the invariant R40. -/
def Obligations.LegalCommandsRecordNoError : Prop :=
  (∀ (i : Instr) (s : State), i.wf = true → buffersOk s →
      ∃ t, exec i s = .next t ∧ t.status.err = s.status.err ∧ t.status.ecode = s.status.ecode) ∧
    ∀ (c c' : Command) (e : CommandError), c.cmd = c'.cmd → decode c = .error e → decode c' = .error e

/-! ### The whole machine -/

/-- The reset state meets the invariant. -/
def Obligations.ResetMeetsTheInvariant : Prop :=
  Inv State.reset

/-- Every step from a state with the invariant ends in one with it (R24, R28, R32, R33, R37, R40, R230). -/
def Obligations.EveryStepKeepsTheInvariant : Prop :=
  ∀ s t : State, Inv s → step s = .next t → Inv t

/-- Code 15 is unreachable (R208), and nothing else stops the machine: from a state with the invariant every step goes on. -/
def Obligations.InvariantStatesNeverStop : Prop :=
  ∀ s : State, Inv s → ∃ t, step s = .next t

/-- No step, from any state at all, ends in a refusal: every command has its meaning. -/
def Obligations.NothingIsRefused : Prop :=
  ∀ (s : State) (r : Refusal), step s ≠ .refused r

/-- R42: no command to one context reads or writes the state of the other. -/
def Obligations.ContextsAreIndependent : Prop :=
  ∀ (i : Instr) (s t : State), exec i s = .next t →
    (usesCtx32 i = false → t.ctx32 = s.ctx32 ∧ ∀ c, exec i { s with ctx32 := c } = .next { t with ctx32 := c }) ∧
      (usesCtx128 i = false → t.ctx128 = s.ctx128 ∧ ∀ c, exec i { s with ctx128 := c } = .next { t with ctx128 := c })

/-- Results stay put: RES0 and RES1 change only in a step that accepts a SUM or SIZE command, or in hardware reset (R29, R240). -/
def Obligations.ResultsStayPut : Prop :=
  ∀ s t : State, step s = .next t → resetsNext s = false → (∀ i, acceptedInstr s = some i → writesResults i = false) →
    t.res0 = s.res0 ∧ t.res1 = s.res1

/-- The seeds change only in a step that accepts INIT32, or INIT128 or INIT64, or in hardware reset (R21, R25, R235). -/
def Obligations.SeedsWrittenOnlyByInit : Prop :=
  ∀ s t : State, step s = .next t → resetsNext s = false →
    ((∀ seed, acceptedInstr s ≠ some (.init32 seed)) → t.ctx32.seed32 = s.ctx32.seed32) ∧
      ((∀ a b, acceptedInstr s ≠ some (.init128 a b) ∧ acceptedInstr s ≠ some (.init64 a)) →
        t.ctx128.seed1 = s.ctx128.seed1 ∧ t.ctx128.seed2 = s.ctx128.seed2)

/-- After hardware reset both digests are the default-seeded ones: INIT32 0, INIT64 0 and INIT128 0, 0 change nothing (R232). -/
def Obligations.ResetIsTheDefaultSeed : Prop :=
  exec (.init32 0) State.reset = .next State.reset ∧ exec (.init64 0) State.reset = .next State.reset ∧
    exec (.init128 0 0) State.reset = .next State.reset

/-! ### The streaming laws -/

/-- Streaming equivalence, 32 bits (R145, which the spec marks derived): from any state, any seed and any split into chunks of at
most 8 bytes, INIT32, the writes and SUM32 end with the one-shot digest of the concatenation, and leave CTX128 alone. -/
def Obligations.StreamingEqualsOneShot32 : Prop :=
  ∀ (seed : Word32) (chunks : List (List Byte)) (s : State), (∀ c ∈ chunks, c.length ≤ 8) →
    ∃ v t, mm3_32 seed chunks.flatten = some v ∧
      execSeq (.init32 seed :: chunks.map write32Bytes ++ [.sum32]) s = .next t ∧ t.res0 = v.setWidth 64 ∧
      t.res1 = 0 ∧ t.ctx128 = s.ctx128

/-- Streaming equivalence, 128 bits (R169, which the spec marks derived). -/
def Obligations.StreamingEqualsOneShot128 : Prop :=
  ∀ (a b : Word64) (chunks : List (List Byte)) (s : State), (∀ c ∈ chunks, c.length ≤ 8) →
    ∃ v t, mm3_128 a b chunks.flatten = some v ∧
      execSeq (.init128 a b :: chunks.map write128Bytes ++ [.sum128]) s = .next t ∧ t.res0 = v.h1 ∧ t.res1 = v.h2 ∧
      t.ctx32 = s.ctx32

/-- Streaming equivalence, 64 bits (R169, which the spec marks derived): INIT64 and SUM64 give the first component. -/
def Obligations.StreamingEqualsOneShot64 : Prop :=
  ∀ (seed : Word64) (chunks : List (List Byte)) (s : State), (∀ c ∈ chunks, c.length ≤ 8) →
    ∃ v t, mm3_128 seed seed chunks.flatten = some v ∧
      execSeq (.init64 seed :: chunks.map write128Bytes ++ [.sum64]) s = .next t ∧ t.res0 = v.h1 ∧ t.res1 = 0

/-- The pseudo-instructions ONESHOT32, ONESHOT64 and ONESHOT128 of R81 end with the one-shot digests, for a byte sequence of any
length (R81, R145, R169). -/
def Obligations.OneShotPrograms : Prop :=
  ∀ (bytes : List Byte) (s : State),
    (∀ seed : Word32, ∃ v t, mm3_32 seed bytes = some v ∧ execSeq (pseudoOneShot32 seed bytes) s = .next t ∧
        t.res0 = v.setWidth 64) ∧
      (∀ seed : Word64, ∃ v t, mm3_128 seed seed bytes = some v ∧ execSeq (pseudoOneShot64 seed bytes) s = .next t ∧
        t.res0 = v.h1) ∧
      ∀ a b : Word64, ∃ v t, mm3_128 a b bytes = some v ∧ execSeq (pseudoOneShot128 a b bytes) s = .next t ∧
        t.res0 = v.h1 ∧ t.res1 = v.h2

/-- Reset correctness, 32 bits (R147, which the spec marks derived): RESET32 in any state, then writes, then SUM32 give the digest
a fresh INIT32 with the context's seed gives. -/
def Obligations.ResetCorrectness32 : Prop :=
  ∀ (chunks : List (List Byte)) (s : State), (∀ c ∈ chunks, c.length ≤ 8) →
    ∃ v t u, mm3_32 s.ctx32.seed32 chunks.flatten = some v ∧
      execSeq (.reset32 :: chunks.map write32Bytes ++ [.sum32]) s = .next t ∧
      execSeq (.init32 s.ctx32.seed32 :: chunks.map write32Bytes ++ [.sum32]) s = .next u ∧
      t.res0 = v.setWidth 64 ∧ u.res0 = t.res0

/-- Reset correctness, 128 and 64 bits (R170, which the spec marks derived): for SUM128 and for SUM64, RESET128 then writes end as
a fresh INIT128 with the context's seeds then the same writes do. -/
def Obligations.ResetCorrectness128 : Prop :=
  ∀ (chunks : List (List Byte)) (s : State), (∀ c ∈ chunks, c.length ≤ 8) →
    ∃ v t u w x, mm3_128 s.ctx128.seed1 s.ctx128.seed2 chunks.flatten = some v ∧
      execSeq (.reset128 :: chunks.map write128Bytes ++ [.sum128]) s = .next t ∧
      execSeq (.init128 s.ctx128.seed1 s.ctx128.seed2 :: chunks.map write128Bytes ++ [.sum128]) s = .next u ∧
      execSeq (.reset128 :: chunks.map write128Bytes ++ [.sum64]) s = .next w ∧
      execSeq (.init128 s.ctx128.seed1 s.ctx128.seed2 :: chunks.map write128Bytes ++ [.sum64]) s = .next x ∧
      t.res0 = v.h1 ∧ t.res1 = v.h2 ∧ u.res0 = t.res0 ∧ u.res1 = t.res1 ∧
      w.res0 = v.h1 ∧ w.res1 = 0 ∧ x.res0 = w.res0 ∧ x.res1 = w.res1

/-- Two SUM32 with no command between them that writes CTX32 give the same RES0 (R146, which the spec marks derived). -/
def Obligations.Sum32IsRepeatable : Prop :=
  ∀ (is : List Instr) (s t u : State), (∀ i ∈ is, writesCtx32 i = false) → exec .sum32 s = .next t →
    execSeq is t = .next u → ∃ v, exec .sum32 u = .next v ∧ v.res0 = t.res0

/-- With no command between them that writes CTX128, two SUM128 give the same results and two SUM64 do (R170), and a SUM64 and a
SUM128, in either order, give the same RES0 (R168); the spec marks both derived. -/
def Obligations.Sum128AndSum64AreRepeatable : Prop :=
  ∀ (is : List Instr) (s t u : State), (∀ i ∈ is, writesCtx128 i = false) → execSeq is t = .next u →
    (exec .sum128 s = .next t →
        ∃ v w, exec .sum128 u = .next v ∧ v.res0 = t.res0 ∧ v.res1 = t.res1 ∧
          exec .sum64 u = .next w ∧ w.res0 = t.res0 ∧ w.res1 = 0) ∧
      (exec .sum64 s = .next t →
        ∃ v w, exec .sum64 u = .next v ∧ v.res0 = t.res0 ∧ v.res1 = t.res1 ∧ v.res1 = 0 ∧
          exec .sum128 u = .next w ∧ w.res0 = t.res0)

/-! ### The datapath -/

/-- Bit `i` of a left rotation is bit `(i - r) mod N` of the word, at both widths (R104, whose formula the spec marks general
knowledge). -/
def Obligations.RotationMovesEveryBit : Prop :=
  (∀ (x : Word32) (r i : Nat), 0 < r → r < 32 → i < 32 → (rotl x r).getLsbD i = x.getLsbD ((i + 32 - r) % 32)) ∧
    ∀ (x : Word64) (r i : Nat), 0 < r → r < 64 → i < 64 → (rotl x r).getLsbD i = x.getLsbD ((i + 64 - r) % 64)

/-- R105: a block read inside the bytes answers the word whose byte `j` is `s[o+j]`; and past the end it has no value (R106). -/
def Obligations.BlockReadIsLittleEndian : Prop :=
  ∀ (s : List Byte) (o n : Nat),
    (o + n ≤ s.length →
        ∃ w, le s o n = some w ∧ ∀ j b, j < n → s[o + j]? = some b → w.toNat / 256 ^ j % 256 = b.toNat) ∧
      (s.length < o + n → le s o n = none) ∧ le32 s o = le s o 4 ∧ le64 s o = le s o 8

/-- R52: the write bytes of a WRITE are the CNT low bytes of OPA, least significant first; the other bytes are ignored. -/
def Obligations.WriteBytesAreLowBytesOfOpa : Prop :=
  (∀ (cnt : BitVec 4) (opa : Word64), (writeBytes cnt opa).length = cnt.toNat) ∧
    (∀ (cnt : BitVec 4) (opa : Word64) (i : Nat), i < cnt.toNat →
      (writeBytes cnt opa)[i]? = some (BitVec.ofNat 8 (opa.toNat / 256 ^ i))) ∧
    ∀ (cnt : BitVec 4) (opa opa' : Word64),
      opa.toNat % 2 ^ (8 * cnt.toNat) = opa'.toNat % 2 ^ (8 * cnt.toNat) → writeBytes cnt opa = writeBytes cnt opa'

/-- R110 and R117: an empty tail changes nothing; otherwise the tail's little-endian number is mixed by one XOR, and of a 128-bit
tail the first 8 bytes reach lane 1 alone and the others lane 2 alone. -/
def Obligations.TailsAreFoldedByOneXor : Prop :=
  (∀ h : Word32, tail32 h [] = h) ∧
    (∀ (h : Word32) (t : List Byte), 0 < t.length → t.length ≤ 3 →
      tail32 h t = h ^^^ kmix32 (BitVec.ofNat 32 (leNat t))) ∧
    (∀ l : Lanes, tail128 l [] = l) ∧
    (∀ (l : Lanes) (t : List Byte), 0 < t.length → t.length ≤ 8 →
      tail128 l t = { h1 := l.h1 ^^^ kmix1 (BitVec.ofNat 64 (leNat t)), h2 := l.h2 }) ∧
    ∀ (l : Lanes) (t u : List Byte), t.length = 8 → 0 < u.length → u.length ≤ 7 →
      tail128 l (t ++ u) =
        { h1 := l.h1 ^^^ kmix1 (BitVec.ofNat 64 (leNat t)), h2 := l.h2 ^^^ kmix2 (BitVec.ofNat 64 (leNat u)) }

/-- The 32-bit mixer as arithmetic on natural numbers modulo 2^32 (R100, R107 to R112). Its rotation is R104's, which the spec
marks general knowledge. -/
def Obligations.Mixer32InNaturalNumbers : Prop :=
  ∀ h k : Word32,
    (kmix32 k).toNat = rotNat 32 (k.toNat * 0xcc9e2d51 % 2 ^ 32) 15 * 0x1b873593 % 2 ^ 32 ∧
      (round32 h k).toNat = (rotNat 32 (h.toNat ^^^ (kmix32 k).toNat) 13 * 5 + 0xe6546b64) % 2 ^ 32 ∧
      (fmix32 h).toNat =
        shiftXorNat (shiftXorNat (shiftXorNat h.toNat 16 * 0x85ebca6b % 2 ^ 32) 13 * 0xc2b2ae35 % 2 ^ 32) 16 ∧
      ∀ (t : List Byte) (len : Word64), final32 h t len = fmix32 (tail32 h t ^^^ BitVec.ofNat 32 len.toNat)

/-- The 128-bit mixer as arithmetic on natural numbers modulo 2^64 (R100, R113 to R116, R118). Its rotation is R104's, which the
spec marks general knowledge. -/
def Obligations.Mixer128InNaturalNumbers : Prop :=
  ∀ (l : Lanes) (k1 k2 : Word64),
    (kmix1 k1).toNat = rotNat 64 (k1.toNat * 0x87c37b91114253d5 % 2 ^ 64) 31 * 0x4cf5ad432745937f % 2 ^ 64 ∧
      (kmix2 k2).toNat = rotNat 64 (k2.toNat * 0x4cf5ad432745937f % 2 ^ 64) 33 * 0x87c37b91114253d5 % 2 ^ 64 ∧
      (round128 l k1 k2).h1.toNat =
        ((rotNat 64 (l.h1.toNat ^^^ (kmix1 k1).toNat) 27 + l.h2.toNat) * 5 + 0x52dce729) % 2 ^ 64 ∧
      (round128 l k1 k2).h2.toNat =
        ((rotNat 64 (l.h2.toNat ^^^ (kmix2 k2).toNat) 31 + (round128 l k1 k2).h1.toNat) * 5 + 0x38495ab5) % 2 ^ 64 ∧
      (fmix64 k1).toNat =
        shiftXorNat
          (shiftXorNat (shiftXorNat k1.toNat 33 * 0xff51afd7ed558ccd % 2 ^ 64) 33 * 0xc4ceb9fe1a85ec53 % 2 ^ 64) 33

/-- R119 and R120: finalization folds the tail, XORs the length into both lanes, cross-adds, mixes each lane, and cross-adds
again; the second sum of a cross-add uses the new `h1`, and the 64-bit digest is the first component. -/
def Obligations.Final128RunsItsStages : Prop :=
  ∀ (l : Lanes) (t : List Byte) (len a b c d e f : Word64),
    a = (tail128 l t).h1 ^^^ len → b = (tail128 l t).h2 ^^^ len → c = a + b → d = b + c →
    e = fmix64 c + fmix64 d → f = fmix64 d + e →
    final128 l t len = { h1 := e, h2 := f } ∧ final64 l t len = e
end

