-- ==== Sys2Proof/Laws/Streaming.lean ====
section
/-! SUPPORT. The byte-serial loop equals the source's form: extract and mix whole blocks, keep the rest (41_digest32.md R142). -/

namespace Sys2Proof.Machine

/-- The first `n` blocks of a byte sequence mixed in order. -/
def mixBlocks {α : Type} (blk : Nat) (mix : α → List Byte → Option α) : Nat → α → List Byte → Option α
  | 0, acc, _ => some acc
  | n + 1, acc, s =>
    match mix acc (s.take blk) with
    | none => none
    | some a => mixBlocks blk mix n a (s.drop blk)

variable {α : Type} {blk : Nat} {mix : α → List Byte → Option α}

/-- A byte that does not complete a block is only buffered. -/
theorem absorbByte_short (acc : α) (buf : List Byte) (b : Byte) (h : buf.length + 1 < blk) :
    absorbByte blk mix acc buf b = some (acc, buf ++ [b]) := by
  simp [absorbByte]; omega

/-- A byte that completes a block has it mixed, and the buffer emptied. -/
theorem absorbByte_full (acc : α) (buf : List Byte) (b : Byte) (h : buf.length + 1 = blk) :
    absorbByte blk mix acc buf b = (mix acc (buf ++ [b])).map fun a => (a, []) := by
  simp [absorbByte, h]

/-- The loop mixes the whole blocks of buffer and bytes in order, and buffers what is left. -/
theorem absorb_eq_mixBlocks (hb : 0 < blk) (bs : List Byte) :
    ∀ (acc : α) (buf : List Byte), buf.length < blk →
      absorb blk mix acc buf bs =
        (mixBlocks blk mix ((buf ++ bs).length / blk) acc (buf ++ bs)).map fun a =>
          (a, (buf ++ bs).drop (blk * ((buf ++ bs).length / blk))) := by
  induction bs with
  | nil =>
    intro acc buf h
    simp [absorb, Nat.div_eq_of_lt h, mixBlocks]
  | cons b bs ih =>
    intro acc buf h
    by_cases hlt : buf.length + 1 < blk
    · have hl : (buf ++ [b]).length < blk := by simpa using hlt
      simpa [absorb, absorbByte_short acc buf b hlt] using ih acc (buf ++ [b]) hl
    · have hfull : buf.length + 1 = blk := by omega
      have hlen : (buf ++ b :: bs).length = bs.length + blk := by simp; omega
      have hdiv : (buf ++ b :: bs).length / blk = bs.length / blk + 1 := by
        rw [hlen, Nat.add_div_right _ hb]
      have happ : buf ++ b :: bs = (buf ++ [b]) ++ bs := by simp
      have hbl : (buf ++ [b]).length = blk := by simpa using hfull
      have htake : (buf ++ b :: bs).take blk = buf ++ [b] := by rw [happ, ← hbl, List.take_left]
      have hdrop : (buf ++ b :: bs).drop blk = bs := by rw [happ, ← hbl, List.drop_left]
      have hrest : (buf ++ b :: bs).drop (blk * (bs.length / blk + 1)) = bs.drop (blk * (bs.length / blk)) := by
        rw [Nat.mul_succ, Nat.add_comm, ← List.drop_drop, hdrop]
      rw [hdiv, hrest, mixBlocks, htake, hdrop]
      simp only [absorb, absorbByte_full acc buf b hfull]
      cases mix acc (buf ++ [b]) with
      | none => simp
      | some a => simpa using ih a [] hb

/-- The loop never fails where mixing a whole block never does. -/
theorem absorb_isSome (hb : 0 < blk) (hm : ∀ a s, s.length = blk → ∃ a', mix a s = some a') (bs : List Byte) :
    ∀ (acc : α) (buf : List Byte), buf.length < blk → ∃ a u, absorb blk mix acc buf bs = some (a, u) := by
  induction bs with
  | nil => exact fun acc buf _ => ⟨acc, buf, rfl⟩
  | cons b bs ih =>
    intro acc buf h
    by_cases hlt : buf.length + 1 < blk
    · simpa [absorb, absorbByte_short acc buf b hlt] using ih acc (buf ++ [b]) (by simpa using hlt)
    · have hfull : buf.length + 1 = blk := by omega
      obtain ⟨a, ha⟩ := hm acc (buf ++ [b]) (by simpa using hfull)
      simpa [absorb, absorbByte_full acc buf b hfull, ha] using ih a [] hb

/-- The loop as a fold of its passes. -/
theorem absorb_eq_foldl (bs : List Byte) :
    ∀ (acc : α) (buf : List Byte),
      absorb blk mix acc buf bs =
        bs.foldl (fun st b => st.bind fun p => absorbByte blk mix p.1 p.2 b) (some (acc, buf)) := by
  have hnone : ∀ bs : List Byte,
      bs.foldl (fun st b => st.bind fun p => absorbByte blk mix p.1 p.2 b) none = none := by
    intro bs; induction bs with
    | nil => rfl
    | cons b bs ih => exact ih
  induction bs with
  | nil => intro acc buf; rfl
  | cons b bs ih =>
    intro acc buf
    simp only [absorb, List.foldl_cons, Option.bind_some]
    cases absorbByte blk mix acc buf b with
    | none => exact (hnone bs).symm
    | some p => exact ih p.1 p.2

/-- The loop run on one sequence of bytes and then on another is the loop run on both. -/
theorem absorb_append (bs cs : List Byte) :
    ∀ (acc : α) (buf : List Byte),
      absorb blk mix acc buf (bs ++ cs) =
        (absorb blk mix acc buf bs).bind fun p => absorb blk mix p.1 p.2 cs := by
  induction bs with
  | nil => intro acc buf; simp [absorb]
  | cons b bs ih =>
    intro acc buf
    simp only [List.cons_append, absorb]
    cases absorbByte blk mix acc buf b with
    | none => rfl
    | some p => exact ih p.1 p.2

/-- What the loop leaves in the buffer is as long as the whole length modulo the block size. -/
theorem absorb_length (hb : 0 < blk) (acc a : α) (buf u bs : List Byte) (h : buf.length < blk)
    (he : absorb blk mix acc buf bs = some (a, u)) : u.length = (buf.length + bs.length) % blk := by
  rw [absorb_eq_mixBlocks hb bs acc buf h] at he
  simp only [Option.map_eq_some_iff] at he
  obtain ⟨_, _, heq⟩ := he
  have hu := (Prod.mk.inj heq).2
  have hmod := Nat.mod_add_div (buf.length + bs.length) blk
  rw [← hu]
  simp only [List.length_drop, List.length_append]
  omega

end Sys2Proof.Machine
end

