-- ==== Sys2Proof/Laws/Datapath.lean ====
section
/-! SUPPORT. The block reader, the rotation and the block mixers: what each answers, and when. -/

namespace Sys2Proof.Machine

/-- Bit `i` of a rotated word is bit `(i - r) mod n` of the word. -/
theorem getLsbD_rotl {n : Nat} (x : BitVec n) (r i : Nat) (h0 : 0 < r) (hr : r < n) (hi : i < n) :
    (rotl x r).getLsbD i = if i < r then x.getLsbD (n + i - r) else x.getLsbD (i - r) := by
  by_cases h : i < r
  · simp [rotl, h, hi, show n - r + i = n + i - r by omega]
  · have : n ≤ n - r + i := by omega
    have hg : i - r < n := by omega
    simp [rotl, h, hi, BitVec.getLsbD_of_ge x _ this, BitVec.getLsbD_eq_getElem hg]

/-- The rotation as arithmetic. In a proof that uses this on the mixers, rewrite with the lemmas one by one (`rw`) and take a
constant's value from `toNat_constant`: where simp or omega is left to do it, the kernel unfolds the arithmetic. -/
theorem toNat_rotl {n : Nat} (x : BitVec n) (r : Nat) (h : r < n) : (rotl x r).toNat = rotNat n x.toNat r := by
  have hx := x.isLt
  rw [rotl, rotNat, BitVec.toNat_or, BitVec.toNat_shiftLeft, BitVec.toNat_ushiftRight, Nat.shiftLeft_eq,
    Nat.shiftRight_eq_div_pow]
  have e : x.toNat * 2 ^ r % 2 ^ n = (x.toNat % 2 ^ (n - r)) <<< r := by
    rw [Nat.shiftLeft_eq, show (2 : Nat) ^ n = 2 ^ (n - r) * 2 ^ r by rw [← Nat.pow_add]; congr 1; omega,
      Nat.mul_mod_mul_right]
  have hlt : x.toNat / 2 ^ (n - r) < 2 ^ r := by
    rw [Nat.div_lt_iff_lt_mul (Nat.two_pow_pos _), ← Nat.pow_add, show r + (n - r) = n by omega]; exact hx
  rw [e, Nat.shiftLeft_add_eq_or_of_lt hlt]

/-- The shift-and-xor as arithmetic. -/
theorem toNat_xorShift {n : Nat} (x : BitVec n) (k : Nat) : (xorShift x k).toNat = shiftXorNat x.toNat k := by
  simp [xorShift, shiftXorNat, Nat.shiftRight_eq_div_pow]

/-- The value of a constant. -/
theorem toNat_constant (n k : Nat) (h : k < 2 ^ n) : (BitVec.ofNat n k).toNat = k := by
  rw [BitVec.toNat_ofNat, Nat.mod_eq_of_lt h]

/-- A little-endian number of `n` bytes is below `256^n`. -/
theorem leNat_lt (s : List Byte) : leNat s < 256 ^ s.length := by
  induction s with
  | nil => simp [leNat]
  | cons b s ih =>
    have := b.isLt
    simp only [leNat, List.length_cons, Nat.pow_succ]
    omega

/-- `leSum` is that number modulo 2^w. -/
theorem toNat_leSum (w : Nat) (s : List Byte) : (leSum w s).toNat = leNat s % 2 ^ w := by
  induction s with
  | nil => simp [leSum, leNat]
  | cons b s ih =>
    have h : (leNat s % 2 ^ w * 256) % 2 ^ w = (leNat s * 256) % 2 ^ w := Nat.mod_mul_mod ..
    simp only [leSum, leNat, BitVec.toNat_add, BitVec.toNat_setWidth, BitVec.toNat_shiftLeft, ih, Nat.shiftLeft_eq]
    rw [show (2 : Nat) ^ 8 = 256 from rfl, h, ← Nat.add_mod, Nat.mul_comm]

/-- The digit at place `j` of a little-endian number is byte `j`. -/
theorem leNat_digit (s : List Byte) (j : Nat) (h : j < s.length) : leNat s / 256 ^ j % 256 = (s[j]).toNat := by
  induction s generalizing j with
  | nil => simp at h
  | cons b s ih =>
    have hb := b.isLt
    cases j with
    | zero => simp only [leNat, Nat.pow_zero, Nat.div_one, List.getElem_cons_zero]; omega
    | succ j =>
      have hd : (b.toNat + 256 * leNat s) / 256 = leNat s := by omega
      simp only [leNat, Nat.pow_succ', ← Nat.div_div_eq_div_mul, hd, List.getElem_cons_succ]
      exact ih j (by simpa using h)

/-- A read inside the bytes answers their little-endian sum. -/
theorem le_eq_some (s : List Byte) (o n : Nat) (h : o + n ≤ s.length) :
    le s o n = some (leSum (8 * n) ((s.drop o).take n)) := by simp [le, h]

/-- A read past the end has no value. -/
theorem le_eq_none (s : List Byte) (o n : Nat) (h : s.length < o + n) : le s o n = none := by
  simp [le]; omega

/-- Reading inside one block of a sequence is reading the sequence. -/
theorem le_block (s : List Byte) (a k o n : Nat) (ha : a + k ≤ s.length) (h : o + n ≤ k) :
    le ((s.drop a).take k) o n = le s (a + o) n := by
  rw [le_eq_some _ _ _ (by simp; omega), le_eq_some _ _ _ (by omega)]
  simp only [List.drop_take, List.drop_drop, List.take_take, show min n (k - o) = n by omega]

/-- A whole 4-byte block is always mixed (R109). -/
theorem mixBlock32_whole (h : Word32) (s : List Byte) (hs : s.length = 4) :
    mixBlock32 h s = some (round32 h (leSum 32 s)) := by
  have : (s.drop 0).take 4 = s := by simp [← hs]
  simp only [mixBlock32, le32, le_eq_some s 0 4 (by omega), this]
  rfl

/-- A whole 16-byte block is always mixed (R116). -/
theorem mixBlock128_whole (l : Lanes) (s : List Byte) (hs : s.length = 16) :
    mixBlock128 l s = some (round128 l (leSum 64 (s.take 8)) (leSum 64 (s.drop 8))) := by
  have h8 : (s.drop 8).take 8 = s.drop 8 := List.take_of_length_le (by simp; omega)
  simp only [mixBlock128, le64, le_eq_some s 0 8 (by omega), le_eq_some s 8 8 (by omega), h8]
  rfl

variable {α : Type} {blk : Nat} {mix : α → List Byte → Option α}

/-- The blocks mixed in order: one more block at the end. -/
theorem mixBlocks_succ (n : Nat) :
    ∀ (acc : α) (s : List Byte),
      mixBlocks blk mix (n + 1) acc s =
        (mixBlocks blk mix n acc s).bind fun a => mix a ((s.drop (blk * n)).take blk) := by
  induction n with
  | zero =>
    intro acc s
    simp only [mixBlocks, Nat.mul_zero, List.drop_zero, Option.bind_some]
    cases mix acc (s.take blk) <;> rfl
  | succ n ih =>
    intro acc s
    rw [mixBlocks]
    conv => rhs; rw [mixBlocks]
    cases mix acc (s.take blk) with
    | none => rfl
    | some a => simp only [ih a (s.drop blk), List.drop_drop, Nat.mul_succ, Nat.add_comm (blk * n)]

/-- Where mixing a whole block never fails, mixing whole blocks never does. -/
theorem mixBlocks_isSome (hm : ∀ a s, s.length = blk → ∃ a', mix a s = some a') (n : Nat) :
    ∀ (acc : α) (s : List Byte), blk * n ≤ s.length → ∃ a, mixBlocks blk mix n acc s = some a := by
  induction n with
  | zero => exact fun acc s _ => ⟨acc, rfl⟩
  | succ n ih =>
    intro acc s h
    rw [Nat.mul_succ] at h
    obtain ⟨a, ha⟩ := hm acc (s.take blk) (by simp; omega)
    simpa [mixBlocks, ha] using ih a (s.drop blk) (by simp; omega)

/-- The loop's block mixing is the reference function's (R145). -/
theorem mixBlocks_eq_blocks32 (seed : Word32) (s : List Byte) (n : Nat) (h : 4 * n ≤ s.length) :
    mixBlocks 4 mixBlock32 n seed s = blocks32 seed s n := by
  induction n with
  | zero => rfl
  | succ n ih =>
    rw [mixBlocks_succ, ih (by omega), blocks32]
    have hk : le32 ((s.drop (4 * n)).take 4) 0 = le32 s (4 * n) := le_block s (4 * n) 4 0 4 (by omega) (by omega)
    cases blocks32 seed s n with
    | none => rfl
    | some a => simp only [Option.bind_some, mixBlock32, hk]; cases le32 s (4 * n) <;> rfl

/-- The loop's block mixing is the reference function's (R169). -/
theorem mixBlocks_eq_blocks128 (seeds : Lanes) (s : List Byte) (n : Nat) (h : 16 * n ≤ s.length) :
    mixBlocks 16 mixBlock128 n seeds s = blocks128 seeds s n := by
  induction n with
  | zero => rfl
  | succ n ih =>
    rw [mixBlocks_succ, ih (by omega), blocks128]
    have h1 : le64 ((s.drop (16 * n)).take 16) 0 = le64 s (16 * n) := le_block s (16 * n) 16 0 8 (by omega) (by omega)
    have h2 : le64 ((s.drop (16 * n)).take 16) 8 = le64 s (16 * n + 8) :=
      le_block s (16 * n) 16 8 8 (by omega) (by omega)
    cases blocks128 seeds s n with
    | none => rfl
    | some a =>
      simp only [Option.bind_some, mixBlock128, h1, h2]
      cases le64 s (16 * n) <;> cases le64 s (16 * n + 8) <;> rfl

/-- A WRITE takes exactly CNT bytes. -/
@[simp] theorem writeBytes_length (cnt : BitVec 4) (opa : Word64) : (writeBytes cnt opa).length = cnt.toNat := by
  simp [writeBytes]

/-- Write byte `i` is bits `8i+7` to `8i` of the operand. -/
theorem writeBytes_getElem (cnt : BitVec 4) (opa : Word64) (i : Nat) (h : i < (writeBytes cnt opa).length) :
    (writeBytes cnt opa)[i] = opa.extractLsb' (8 * i) 8 := by
  simp [writeBytes]

/-- The write bytes as digits of the operand. -/
theorem writeBytes_eq_digits (cnt : BitVec 4) (opa : Word64) :
    writeBytes cnt opa = (List.range cnt.toNat).map fun k => BitVec.ofNat 8 (opa.toNat / 256 ^ k) := by
  refine List.map_congr_left fun k _ => BitVec.eq_of_toNat_eq ?_
  simp [BitVec.extractLsb'_toNat, Nat.shiftRight_eq_div_pow, Nat.pow_mul]

/-- Moving a length counter by a count, as arithmetic. -/
theorem add_count (a : Word64) (cnt : BitVec 4) : a + cnt.setWidth 64 = BitVec.ofNat 64 (a.toNat + cnt.toNat) := by
  apply BitVec.eq_of_toNat_eq
  have := cnt.isLt
  simp

/-- Packing at most 8 bytes and taking them out again gives the bytes. -/
theorem writeBytes_packBytes (bs : List Byte) (h : bs.length ≤ 8) :
    writeBytes (BitVec.ofNat 4 bs.length) (packBytes bs) = bs := by
  have hlen : (BitVec.ofNat 4 bs.length).toNat = bs.length := by simp; omega
  refine List.ext_getElem (by simpa using hlen) fun i h1 h2 => ?_
  rw [writeBytes_getElem]
  apply BitVec.eq_of_toNat_eq
  have hlt := leNat_lt bs
  have hpow : 256 ^ bs.length ≤ 2 ^ 64 := by
    calc 256 ^ bs.length ≤ 256 ^ 8 := Nat.pow_le_pow_right (by decide) h
      _ = 2 ^ 64 := by decide
  rw [BitVec.extractLsb'_toNat, packBytes, toNat_leSum, Nat.mod_eq_of_lt (Nat.lt_of_lt_of_le hlt hpow),
    Nat.shiftRight_eq_div_pow, Nat.pow_mul, show (2 : Nat) ^ 8 = 256 from rfl, leNat_digit bs i h2]

end Sys2Proof.Machine
end

