-- ==== Sys2Proof/Laws/Decode.lean ====
section
/-! SUPPORT. The command word's fields as numbers, and the fields of an encoded word. -/

namespace Sys2Proof

theorem opField_toNat (w : Word32) : (opField w).toNat = w.toNat % 256 := by
  simp [opField, BitVec.extractLsb'_toNat]

theorem cntField_toNat (w : Word32) : (cntField w).toNat = w.toNat / 256 % 16 := by
  simp [cntField, BitVec.extractLsb'_toNat, Nat.shiftRight_eq_div_pow]

theorem rsvField_toNat (w : Word32) : (rsvField w).toNat = w.toNat / 4096 := by
  have := w.isLt
  simp only [rsvField, BitVec.extractLsb'_toNat, Nat.shiftRight_eq_div_pow]
  omega

/-- A command word is its three fields. -/
theorem word_of_fields (w : Word32) :
    w.toNat = (rsvField w).toNat * 4096 + (cntField w).toNat * 256 + (opField w).toNat := by
  rw [opField_toNat, cntField_toNat, rsvField_toNat]; omega

@[simp] theorem opField_commandWord (i : Instr) : opField i.commandWord = i.opcode := by
  apply BitVec.eq_of_toNat_eq
  have h1 := i.opcode.isLt
  rw [opField_toNat, Instr.commandWord, BitVec.toNat_append, ← Nat.shiftLeft_add_eq_or_of_lt h1]
  simp [Nat.shiftLeft_eq]
  omega

@[simp] theorem cntField_commandWord (i : Instr) : cntField i.commandWord = i.countBits := by
  apply BitVec.eq_of_toNat_eq
  have h1 := i.opcode.isLt
  have h2 := i.countBits.isLt
  rw [cntField_toNat, Instr.commandWord, BitVec.toNat_append, BitVec.toNat_append,
    ← Nat.shiftLeft_add_eq_or_of_lt h1]
  simp [Nat.shiftLeft_eq]
  omega

@[simp] theorem rsvField_commandWord (i : Instr) : rsvField i.commandWord = 0 := by
  apply BitVec.eq_of_toNat_eq
  have h1 := i.opcode.isLt
  have h2 := i.countBits.isLt
  rw [rsvField_toNat, Instr.commandWord, BitVec.toNat_append, BitVec.toNat_append,
    ← Nat.shiftLeft_add_eq_or_of_lt h1]
  simp [Nat.shiftLeft_eq]
  omega

/-- Decoding succeeds exactly where an opcode selects a command and its reserved and count fields are legal. -/
theorem decode_ok_iff (c : Command) (i : Instr) :
    decode c = .ok i ↔
      selectOpcode c = some i ∧ rsvField c.cmd = 0 ∧ (i.hasCount = false → cntField c.cmd = 0) ∧
        (i.hasCount = true → (cntField c.cmd).toNat ≤ Config.cntMax) := by
  unfold decode
  cases h : selectOpcode c with
  | none => simp
  | some j =>
    constructor
    · intro hd
      dsimp only at hd
      by_cases h1 : rsvField c.cmd ≠ 0
      · rw [if_pos h1] at hd; cases hd
      rw [if_neg h1] at hd
      by_cases h2 : j.hasCount = false ∧ cntField c.cmd ≠ 0
      · rw [if_pos h2] at hd; cases hd
      rw [if_neg h2] at hd
      by_cases h3 : j.hasCount = true ∧ Config.cntMax < (cntField c.cmd).toNat
      · rw [if_pos h3] at hd; cases hd
      rw [if_neg h3] at hd
      cases hd
      exact ⟨rfl, not_not.1 h1, fun hf => by_contra fun hc => h2 ⟨hf, hc⟩,
        fun ht => Nat.le_of_not_lt fun hc => h3 ⟨ht, hc⟩⟩
    · rintro ⟨hj, h1, h2, h3⟩
      cases hj
      have h2' : ¬(i.hasCount = false ∧ cntField c.cmd ≠ 0) := fun hn => hn.2 (h2 hn.1)
      have h3' : ¬(i.hasCount = true ∧ Config.cntMax < (cntField c.cmd).toNat) :=
        fun hn => absurd (h3 hn.1) (Nat.not_le.2 hn.2)
      have h1' : ¬rsvField c.cmd ≠ 0 := not_not.2 h1
      dsimp only
      rw [if_neg h1', if_neg h2', if_neg h3']

/-- A word with no reserved or count bit set decodes to the command its opcode names. -/
theorem decode_of_fields (w : Word32) (a b : Word64) (i : Instr) (h : selectOpcode ⟨w, a, b⟩ = some i)
    (hr : rsvField w = 0) (hc : cntField w = 0) : decode ⟨w, a, b⟩ = .ok i :=
  (decode_ok_iff _ _).2 ⟨h, hr, fun _ => hc, fun _ => by
    rw [show cntField (Command.mk w a b).cmd = 0 from hc]; exact Nat.zero_le _⟩

/-- Two command words with the same three fields are one word. -/
theorem word_eq_of_fields (v w : Word32) (ho : opField v = opField w) (hc : cntField v = cntField w)
    (hr : rsvField v = rsvField w) : v = w := by
  apply BitVec.eq_of_toNat_eq
  rw [word_of_fields v, word_of_fields w, ho, hc, hr]

/-- A row whose mask is full selects one word. -/
theorem selects_bare (w p : Word32) (name : String) :
    (OpcodeRow.mk name p 0xFFFFFFFF false).selects w = true ↔ w = p := by
  have hm : w &&& 0xFFFFFFFF#32 = w := by
    rw [show (0xFFFFFFFF#32) = BitVec.allOnes 32 by decide, BitVec.and_allOnes]
  simp [OpcodeRow.selects, hm]

/-- A row whose mask leaves CNT out selects by OP, RSV and a legal count. -/
theorem selects_counted (w p : Word32) (name : String) (hp : cntField p = 0) :
    (OpcodeRow.mk name p 0xFFFFF0FF true).selects w = true ↔
      opField w = opField p ∧ rsvField w = rsvField p ∧ (cntField w).toNat ≤ Config.cntMax := by
  have e1 : opField (w &&& 0xFFFFF0FF#32) = opField w := by
    simp only [opField, BitVec.extractLsb'_and]
    rw [show BitVec.extractLsb' 0 8 (0xFFFFF0FF#32) = BitVec.allOnes 8 by decide, BitVec.and_allOnes]
  have e2 : rsvField (w &&& 0xFFFFF0FF#32) = rsvField w := by
    simp only [rsvField, BitVec.extractLsb'_and]
    rw [show BitVec.extractLsb' 12 20 (0xFFFFF0FF#32) = BitVec.allOnes 20 by decide, BitVec.and_allOnes]
  have e3 : cntField (w &&& 0xFFFFF0FF#32) = 0 := by
    simp only [cntField, BitVec.extractLsb'_and]
    rw [show BitVec.extractLsb' 8 4 (0xFFFFF0FF#32) = 0#4 by decide]
    simp
  have hm : (w &&& 0xFFFFF0FF#32) = p ↔ opField w = opField p ∧ rsvField w = rsvField p :=
    ⟨fun h => by rw [← h, e1, e2]; exact ⟨rfl, rfl⟩,
      fun ⟨ho, hr⟩ => word_eq_of_fields _ _ (e1.trans ho) (e3.trans hp.symm) (e2.trans hr)⟩
  simp only [OpcodeRow.selects, Bool.and_eq_true, beq_iff_eq, Bool.or_eq_true, Bool.not_true, Bool.false_eq_true,
    false_or, countLegal, decide_eq_true_iff]
  exact ⟨fun ⟨h, hc⟩ => ⟨(hm.1 h).1, (hm.1 h).2, hc⟩, fun ⟨h1, h2, hc⟩ => ⟨hm.2 ⟨h1, h2⟩, hc⟩⟩

/-- The command an opcode names has that opcode, and takes its count from CNT where it has one. -/
theorem selectOpcode_fields (c : Command) (i : Instr) (h : selectOpcode c = some i) :
    i.opcode.toNat = (opField c.cmd).toNat ∧ (i.hasCount = true → i.countBits = cntField c.cmd) ∧
      (i.hasCount = false → i.countBits = 0) := by
  unfold selectOpcode at h
  split at h <;> first | (cases h; done) | (cases h; simp_all [Instr.opcode, Instr.countBits, Instr.hasCount])

end Sys2Proof
end

