-- ==== Sys2Proof/Laws/State.lean ====
section
/-! SUPPORT. One lemma per field per update of the state, true by rfl, so that no proof unfolds a record update. The
lemmas on `setResults` are proved by `(rfl)`: simp then cites them, and the kernel never unfolds a digest to compare fields. -/

namespace Sys2Proof.Machine

@[simp] theorem setCtx32_ctx32 (s : State) (c : Ctx32) : (s.setCtx32 c).ctx32 = c := rfl
@[simp] theorem setCtx32_ctx128 (s : State) (c : Ctx32) : (s.setCtx32 c).ctx128 = s.ctx128 := rfl
@[simp] theorem setCtx32_res0 (s : State) (c : Ctx32) : (s.setCtx32 c).res0 = s.res0 := rfl
@[simp] theorem setCtx32_res1 (s : State) (c : Ctx32) : (s.setCtx32 c).res1 = s.res1 := rfl
@[simp] theorem setCtx32_status (s : State) (c : Ctx32) : (s.setCtx32 c).status = s.status := rfl
@[simp] theorem setCtx32_rst (s : State) (c : Ctx32) : (s.setCtx32 c).rst = s.rst := rfl
@[simp] theorem setCtx32_program (s : State) (c : Ctx32) : (s.setCtx32 c).program = s.program := rfl
@[simp] theorem setCtx32_pc (s : State) (c : Ctx32) : (s.setCtx32 c).pc = s.pc := rfl
@[simp] theorem setCtx32_schedule (s : State) (c : Ctx32) : (s.setCtx32 c).schedule = s.schedule := rfl
@[simp] theorem setCtx32_reads (s : State) (c : Ctx32) : (s.setCtx32 c).reads = s.reads := rfl
@[simp] theorem setCtx32_draws (s : State) (c : Ctx32) : (s.setCtx32 c).draws = s.draws := rfl

@[simp] theorem setCtx128_ctx32 (s : State) (c : Ctx128) : (s.setCtx128 c).ctx32 = s.ctx32 := rfl
@[simp] theorem setCtx128_ctx128 (s : State) (c : Ctx128) : (s.setCtx128 c).ctx128 = c := rfl
@[simp] theorem setCtx128_res0 (s : State) (c : Ctx128) : (s.setCtx128 c).res0 = s.res0 := rfl
@[simp] theorem setCtx128_res1 (s : State) (c : Ctx128) : (s.setCtx128 c).res1 = s.res1 := rfl
@[simp] theorem setCtx128_status (s : State) (c : Ctx128) : (s.setCtx128 c).status = s.status := rfl
@[simp] theorem setCtx128_rst (s : State) (c : Ctx128) : (s.setCtx128 c).rst = s.rst := rfl
@[simp] theorem setCtx128_program (s : State) (c : Ctx128) : (s.setCtx128 c).program = s.program := rfl
@[simp] theorem setCtx128_pc (s : State) (c : Ctx128) : (s.setCtx128 c).pc = s.pc := rfl
@[simp] theorem setCtx128_schedule (s : State) (c : Ctx128) : (s.setCtx128 c).schedule = s.schedule := rfl
@[simp] theorem setCtx128_reads (s : State) (c : Ctx128) : (s.setCtx128 c).reads = s.reads := rfl
@[simp] theorem setCtx128_draws (s : State) (c : Ctx128) : (s.setCtx128 c).draws = s.draws := rfl

@[simp] theorem setResults_ctx32 (s : State) (r0 r1 : Word64) : (s.setResults r0 r1).ctx32 = s.ctx32 := (rfl)
@[simp] theorem setResults_ctx128 (s : State) (r0 r1 : Word64) : (s.setResults r0 r1).ctx128 = s.ctx128 := (rfl)
@[simp] theorem setResults_res0 (s : State) (r0 r1 : Word64) : (s.setResults r0 r1).res0 = r0 := (rfl)
@[simp] theorem setResults_res1 (s : State) (r0 r1 : Word64) : (s.setResults r0 r1).res1 = r1 := (rfl)
@[simp] theorem setResults_status (s : State) (r0 r1 : Word64) : (s.setResults r0 r1).status = s.status := (rfl)
@[simp] theorem setResults_rst (s : State) (r0 r1 : Word64) : (s.setResults r0 r1).rst = s.rst := (rfl)
@[simp] theorem setResults_program (s : State) (r0 r1 : Word64) : (s.setResults r0 r1).program = s.program := (rfl)
@[simp] theorem setResults_pc (s : State) (r0 r1 : Word64) : (s.setResults r0 r1).pc = s.pc := (rfl)
@[simp] theorem setResults_schedule (s : State) (r0 r1 : Word64) : (s.setResults r0 r1).schedule = s.schedule := (rfl)
@[simp] theorem setResults_reads (s : State) (r0 r1 : Word64) : (s.setResults r0 r1).reads = s.reads := (rfl)
@[simp] theorem setResults_draws (s : State) (r0 r1 : Word64) : (s.setResults r0 r1).draws = s.draws := (rfl)

@[simp] theorem setLastCnt_ctx32 (s : State) (cnt : BitVec 4) : (s.setLastCnt cnt).ctx32 = s.ctx32 := rfl
@[simp] theorem setLastCnt_ctx128 (s : State) (cnt : BitVec 4) : (s.setLastCnt cnt).ctx128 = s.ctx128 := rfl
@[simp] theorem setLastCnt_res0 (s : State) (cnt : BitVec 4) : (s.setLastCnt cnt).res0 = s.res0 := rfl
@[simp] theorem setLastCnt_res1 (s : State) (cnt : BitVec 4) : (s.setLastCnt cnt).res1 = s.res1 := rfl
@[simp] theorem setLastCnt_status (s : State) (cnt : BitVec 4) : (s.setLastCnt cnt).status = s.status.recordCount cnt := rfl
@[simp] theorem setLastCnt_rst (s : State) (cnt : BitVec 4) : (s.setLastCnt cnt).rst = s.rst := rfl
@[simp] theorem setLastCnt_program (s : State) (cnt : BitVec 4) : (s.setLastCnt cnt).program = s.program := rfl
@[simp] theorem setLastCnt_pc (s : State) (cnt : BitVec 4) : (s.setLastCnt cnt).pc = s.pc := rfl
@[simp] theorem setLastCnt_schedule (s : State) (cnt : BitVec 4) : (s.setLastCnt cnt).schedule = s.schedule := rfl
@[simp] theorem setLastCnt_reads (s : State) (cnt : BitVec 4) : (s.setLastCnt cnt).reads = s.reads := rfl
@[simp] theorem setLastCnt_draws (s : State) (cnt : BitVec 4) : (s.setLastCnt cnt).draws = s.draws := rfl

@[simp] theorem raiseCommandError_ctx32 (e : CommandError) (s : State) : (raiseCommandError e s).ctx32 = s.ctx32 := rfl
@[simp] theorem raiseCommandError_ctx128 (e : CommandError) (s : State) : (raiseCommandError e s).ctx128 = s.ctx128 := rfl
@[simp] theorem raiseCommandError_res0 (e : CommandError) (s : State) : (raiseCommandError e s).res0 = s.res0 := rfl
@[simp] theorem raiseCommandError_res1 (e : CommandError) (s : State) : (raiseCommandError e s).res1 = s.res1 := rfl
@[simp] theorem raiseCommandError_status (e : CommandError) (s : State) : (raiseCommandError e s).status = s.status.recordError e := rfl
@[simp] theorem raiseCommandError_rst (e : CommandError) (s : State) : (raiseCommandError e s).rst = s.rst := rfl
@[simp] theorem raiseCommandError_program (e : CommandError) (s : State) : (raiseCommandError e s).program = s.program := rfl
@[simp] theorem raiseCommandError_pc (e : CommandError) (s : State) : (raiseCommandError e s).pc = s.pc := rfl
@[simp] theorem raiseCommandError_schedule (e : CommandError) (s : State) : (raiseCommandError e s).schedule = s.schedule := rfl
@[simp] theorem raiseCommandError_reads (e : CommandError) (s : State) : (raiseCommandError e s).reads = s.reads := rfl
@[simp] theorem raiseCommandError_draws (e : CommandError) (s : State) : (raiseCommandError e s).draws = s.draws := rfl

@[simp] theorem hardwareReset_ctx32 (s : State) : s.hardwareReset.ctx32 = Ctx32.reset := rfl
@[simp] theorem hardwareReset_ctx128 (s : State) : s.hardwareReset.ctx128 = Ctx128.reset := rfl
@[simp] theorem hardwareReset_res0 (s : State) : s.hardwareReset.res0 = 0 := rfl
@[simp] theorem hardwareReset_res1 (s : State) : s.hardwareReset.res1 = 0 := rfl
@[simp] theorem hardwareReset_status (s : State) : s.hardwareReset.status = Status.reset := rfl
@[simp] theorem hardwareReset_rst (s : State) : s.hardwareReset.rst = s.rst := rfl
@[simp] theorem hardwareReset_program (s : State) : s.hardwareReset.program = s.program := rfl
@[simp] theorem hardwareReset_pc (s : State) : s.hardwareReset.pc = s.pc := rfl
@[simp] theorem hardwareReset_schedule (s : State) : s.hardwareReset.schedule = s.schedule := rfl
@[simp] theorem hardwareReset_reads (s : State) : s.hardwareReset.reads = s.reads := rfl
@[simp] theorem hardwareReset_draws (s : State) : s.hardwareReset.draws = s.draws := rfl

@[simp] theorem advance_ctx32 (s : State) : s.advance.ctx32 = s.ctx32 := rfl
@[simp] theorem advance_ctx128 (s : State) : s.advance.ctx128 = s.ctx128 := rfl
@[simp] theorem advance_res0 (s : State) : s.advance.res0 = s.res0 := rfl
@[simp] theorem advance_res1 (s : State) : s.advance.res1 = s.res1 := rfl
@[simp] theorem advance_status (s : State) : s.advance.status = s.status := rfl
@[simp] theorem advance_rst (s : State) : s.advance.rst = s.rst := rfl
@[simp] theorem advance_program (s : State) : s.advance.program = s.program := rfl
@[simp] theorem advance_pc (s : State) : s.advance.pc = s.pc + 1 := rfl
@[simp] theorem advance_schedule (s : State) : s.advance.schedule = s.schedule := rfl
@[simp] theorem advance_reads (s : State) : s.advance.reads = s.reads := rfl
@[simp] theorem advance_draws (s : State) : s.advance.draws = s.draws := rfl

@[simp] theorem drawRead_ctx32 (s : State) : s.drawRead.ctx32 = s.ctx32 := rfl
@[simp] theorem drawRead_ctx128 (s : State) : s.drawRead.ctx128 = s.ctx128 := rfl
@[simp] theorem drawRead_res0 (s : State) : s.drawRead.res0 = s.res0 := rfl
@[simp] theorem drawRead_res1 (s : State) : s.drawRead.res1 = s.res1 := rfl
@[simp] theorem drawRead_status (s : State) : s.drawRead.status = s.status := rfl
@[simp] theorem drawRead_rst (s : State) : s.drawRead.rst = s.rst := rfl
@[simp] theorem drawRead_program (s : State) : s.drawRead.program = s.program := rfl
@[simp] theorem drawRead_pc (s : State) : s.drawRead.pc = s.pc := rfl
@[simp] theorem drawRead_schedule (s : State) : s.drawRead.schedule = s.schedule := rfl
@[simp] theorem drawRead_reads (s : State) : s.drawRead.reads = s.reads ++ [freeView s.draws] := rfl
@[simp] theorem drawRead_draws (s : State) : s.drawRead.draws = s.draws + 1 := rfl

@[simp] theorem recordError_err (st : Status) (e : CommandError) : (st.recordError e).err = true := rfl
@[simp] theorem recordError_lastCnt (st : Status) (e : CommandError) : (st.recordError e).lastCnt = st.lastCnt := rfl
@[simp] theorem recordCount_err (st : Status) (cnt : BitVec 4) : (st.recordCount cnt).err = st.err := rfl
@[simp] theorem recordCount_ecode (st : Status) (cnt : BitVec 4) : (st.recordCount cnt).ecode = st.ecode := rfl
@[simp] theorem recordCount_lastCnt (st : Status) (cnt : BitVec 4) : (st.recordCount cnt).lastCnt = cnt := rfl

/-- An error recorded first sets the code. -/
theorem recordError_ecode_first (st : Status) (e : CommandError) (h : st.err = false) :
    (st.recordError e).ecode = some e := by simp [Status.recordError, h]

/-- A later error keeps the first code. -/
theorem recordError_ecode_later (st : Status) (e : CommandError) (h : st.err = true) :
    (st.recordError e).ecode = st.ecode := by simp [Status.recordError, h]

@[simp] theorem readBusy_zero (s : State) : State.readBusy 0 s = s := rfl
@[simp] theorem readBusy_succ (n : Nat) (s : State) : State.readBusy (n + 1) s = State.readBusy n s.drawRead := rfl

@[simp] theorem readBusy_ctx32 (n : Nat) (s : State) : (State.readBusy n s).ctx32 = s.ctx32 := by
  induction n generalizing s with
  | zero => rfl
  | succ n ih => simp [ih]
@[simp] theorem readBusy_ctx128 (n : Nat) (s : State) : (State.readBusy n s).ctx128 = s.ctx128 := by
  induction n generalizing s with
  | zero => rfl
  | succ n ih => simp [ih]
@[simp] theorem readBusy_res0 (n : Nat) (s : State) : (State.readBusy n s).res0 = s.res0 := by
  induction n generalizing s with
  | zero => rfl
  | succ n ih => simp [ih]
@[simp] theorem readBusy_res1 (n : Nat) (s : State) : (State.readBusy n s).res1 = s.res1 := by
  induction n generalizing s with
  | zero => rfl
  | succ n ih => simp [ih]
@[simp] theorem readBusy_status (n : Nat) (s : State) : (State.readBusy n s).status = s.status := by
  induction n generalizing s with
  | zero => rfl
  | succ n ih => simp [ih]
@[simp] theorem readBusy_rst (n : Nat) (s : State) : (State.readBusy n s).rst = s.rst := by
  induction n generalizing s with
  | zero => rfl
  | succ n ih => simp [ih]
@[simp] theorem readBusy_program (n : Nat) (s : State) : (State.readBusy n s).program = s.program := by
  induction n generalizing s with
  | zero => rfl
  | succ n ih => simp [ih]
@[simp] theorem readBusy_pc (n : Nat) (s : State) : (State.readBusy n s).pc = s.pc := by
  induction n generalizing s with
  | zero => rfl
  | succ n ih => simp [ih]
@[simp] theorem readBusy_schedule (n : Nat) (s : State) : (State.readBusy n s).schedule = s.schedule := by
  induction n generalizing s with
  | zero => rfl
  | succ n ih => simp [ih]

@[simp] theorem readBusy_draws (n : Nat) (s : State) : (State.readBusy n s).draws = s.draws + n := by
  induction n generalizing s with
  | zero => rfl
  | succ n ih => simp [ih]; omega

/-- `n` busy reads give `n` draws, each of its own. -/
theorem readBusy_reads (n : Nat) (s : State) :
    (State.readBusy n s).reads = s.reads ++ (List.range' s.draws n).map freeView := by
  induction n generalizing s with
  | zero => simp
  | succ n ih => simp [ih, List.range'_succ]

/-- Busy reads change what the host has read and the draw counter, and nothing else. -/
theorem readBusy_eq (n : Nat) (s : State) :
    State.readBusy n s =
      { s with reads := s.reads ++ (List.range' s.draws n).map freeView, draws := s.draws + n } := by
  have h : ∀ a b : State, a.ctx32 = b.ctx32 → a.ctx128 = b.ctx128 → a.res0 = b.res0 → a.res1 = b.res1 →
      a.status = b.status → a.rst = b.rst → a.program = b.program → a.pc = b.pc → a.schedule = b.schedule →
      a.reads = b.reads → a.draws = b.draws → a = b := by
    intro a b; cases a; cases b; simp_all
  apply h <;> simp [readBusy_reads]

/-- Driving `rst` high, or releasing it, leaves the reset state behind the pin's new level. -/
theorem driveRst_active (s : State) (level : Bool) (h : s.rst = true ∨ level = true) :
    s.driveRst level = { s.hardwareReset with rst := level } := by
  simp only [State.driveRst]; rcases h with h | h <;> simp [h]

/-- Driving a low `rst` low changes nothing. -/
theorem driveRst_idle (s : State) (h : s.rst = false) : s.driveRst false = s := by
  simp [State.driveRst, h]

end Sys2Proof.Machine
end

