-- ==== Sys2Proof/Laws/Ops.lean ====
section
/-! SUPPORT. What each shared operation of the state can do. -/

namespace Sys2Proof.Machine

/-- Taking bytes into CTX32 under the buffer's bound: whole blocks mixed in order, the rest buffered, the length moved. -/
theorem take32_eq (c : Ctx32) (cnt : BitVec 4) (bs : List Byte) (h : c.buf32.length < 4) :
    ∃ v, mixBlocks 4 mixBlock32 ((c.buf32 ++ bs).length / 4) c.h32 (c.buf32 ++ bs) = some v ∧
      c.take cnt bs =
        some { c with
                h32 := v, buf32 := (c.buf32 ++ bs).drop (4 * ((c.buf32 ++ bs).length / 4)),
                tlen32 := c.tlen32 + cnt.setWidth 64 } := by
  obtain ⟨v, hv⟩ := mixBlocks_isSome (blk := 4) (mix := mixBlock32) (fun a s hs => ⟨_, mixBlock32_whole a s hs⟩)
    ((c.buf32 ++ bs).length / 4) c.h32 (c.buf32 ++ bs) (by omega)
  refine ⟨v, hv, ?_⟩
  simp only [Ctx32.take, Config.blk32, absorb_eq_mixBlocks (by decide : 0 < 4) bs c.h32 c.buf32 h, hv, Option.map_some]

/-- Taking bytes into CTX128 under the buffer's bound. -/
theorem take128_eq (c : Ctx128) (cnt : BitVec 4) (bs : List Byte) (h : c.buf128.length < 16) :
    ∃ v, mixBlocks 16 mixBlock128 ((c.buf128 ++ bs).length / 16) c.lanes (c.buf128 ++ bs) = some v ∧
      c.take cnt bs =
        some { c with
                h1 := v.h1, h2 := v.h2, buf128 := (c.buf128 ++ bs).drop (16 * ((c.buf128 ++ bs).length / 16)),
                tlen128 := c.tlen128 + cnt.setWidth 64 } := by
  obtain ⟨v, hv⟩ := mixBlocks_isSome (blk := 16) (mix := mixBlock128) (fun a s hs => ⟨_, mixBlock128_whole a s hs⟩)
    ((c.buf128 ++ bs).length / 16) c.lanes (c.buf128 ++ bs) (by omega)
  refine ⟨v, hv, ?_⟩
  simp only [Ctx128.take, Config.blk128, absorb_eq_mixBlocks (by decide : 0 < 16) bs c.lanes c.buf128 h, hv,
    Option.map_some]

/-- Taking CNT bytes keeps the buffer under its bound and in step with the length counter. -/
theorem take32_keeps (c c' : Ctx32) (cnt : BitVec 4) (bs : List Byte) (h : c.buf32.length < 4)
    (hc : c.tlen32.toNat % 4 = c.buf32.length % 4) (hl : bs.length = cnt.toNat) (he : c.take cnt bs = some c') :
    c'.buf32.length < 4 ∧ c'.tlen32.toNat % 4 = c'.buf32.length % 4 ∧ c'.seed32 = c.seed32 := by
  obtain ⟨v, -, ht⟩ := take32_eq c cnt bs h
  rw [ht, Option.some.injEq] at he
  have hlen : (c.buf32 ++ bs).length = c.buf32.length + cnt.toNat := by simp [hl]
  subst he
  simp only [List.length_drop, hlen, BitVec.toNat_add, BitVec.toNat_setWidth]
  have := cnt.isLt
  exact ⟨by omega, by omega, trivial⟩

/-- The same for CTX128. -/
theorem take128_keeps (c c' : Ctx128) (cnt : BitVec 4) (bs : List Byte) (h : c.buf128.length < 16)
    (hc : c.tlen128.toNat % 16 = c.buf128.length % 16) (hl : bs.length = cnt.toNat) (he : c.take cnt bs = some c') :
    c'.buf128.length < 16 ∧ c'.tlen128.toNat % 16 = c'.buf128.length % 16 ∧ c'.seed1 = c.seed1 ∧
      c'.seed2 = c.seed2 := by
  obtain ⟨v, -, ht⟩ := take128_eq c cnt bs h
  rw [ht, Option.some.injEq] at he
  have hlen : (c.buf128 ++ bs).length = c.buf128.length + cnt.toNat := by simp [hl]
  subst he
  simp only [List.length_drop, hlen, BitVec.toNat_add, BitVec.toNat_setWidth]
  have := cnt.isLt
  exact ⟨by omega, by omega, trivial, trivial⟩

theorem guard32_ok (s : State) (k : Result) (h : s.ctx32.buf32.length < 4) : guard32 s k = k :=
  if_pos h

theorem guard128_ok (s : State) (k : Result) (h : s.ctx128.buf128.length < 16) : guard128 s k = k :=
  if_pos h

theorem guard32_over (s : State) (k : Result) (h : 4 ≤ s.ctx32.buf32.length) : guard32 s k = invariantFault s :=
  if_neg (Nat.not_lt.2 h)

theorem guard128_over (s : State) (k : Result) (h : 16 ≤ s.ctx128.buf128.length) :
    guard128 s k = invariantFault s :=
  if_neg (Nat.not_lt.2 h)

theorem guard32_next (s t : State) (k : Result) (h : guard32 s k = .next t) : s.ctx32.buf32.length < 4 ∧ k = .next t := by
  by_cases hb : s.ctx32.buf32.length < 4
  · exact ⟨hb, by rwa [guard32_ok s k hb] at h⟩
  · rw [guard32_over s k (by omega)] at h; cases h

theorem guard128_next (s t : State) (k : Result) (h : guard128 s k = .next t) :
    s.ctx128.buf128.length < 16 ∧ k = .next t := by
  by_cases hb : s.ctx128.buf128.length < 16
  · exact ⟨hb, by rwa [guard128_ok s k hb] at h⟩
  · rw [guard128_over s k (by omega)] at h; cases h

/-- A legal count is at most 8. -/
theorem countLegal_iff (cnt : BitVec 4) : countLegal cnt = true ↔ cnt.toNat ≤ 8 :=
  decide_eq_true_iff

/-- Any other count is not legal. -/
theorem countLegal_false (cnt : BitVec 4) (h : ¬cnt.toNat ≤ 8) : countLegal cnt = false :=
  Bool.eq_false_iff.2 fun hc => h ((countLegal_iff cnt).1 hc)

@[simp] theorem andThen_next (s : State) (k : State → Result) : andThen (.next s) k = k s := rfl

/-- A sequence of two results that goes on has gone on at both. -/
theorem andThen_eq_next (r : Result) (k : State → Result) (t : State) :
    andThen r k = .next t ↔ ∃ s, r = .next s ∧ k s = .next t := by
  cases r <;> simp [andThen]

end Sys2Proof.Machine
end

