-- ==== Sys2Proof/Laws/Exec.lean ====
section
/-! SUPPORT. What each command can do when it goes on, and that it goes on. -/

namespace Sys2Proof.Machine

/-- WRITE32 with a legal count under the buffer's bound takes its bytes and records the count. -/
theorem execWrite32_next (cnt : BitVec 4) (data : Word64) (s : State) (hc : cnt.toNat ≤ 8)
    (hb : s.ctx32.buf32.length < 4) :
    ∃ c, s.ctx32.take cnt (writeBytes cnt data) = some c ∧
      execWrite32 cnt data s = .next ((s.setCtx32 c).setLastCnt cnt) := by
  obtain ⟨v, -, ht⟩ := take32_eq s.ctx32 cnt (writeBytes cnt data) hb
  exact ⟨_, ht, by simp [execWrite32, (countLegal_iff cnt).2 hc, guard32_ok s _ hb, ht]⟩

/-- WRITE128 with a legal count under the buffer's bound takes its bytes and records the count. -/
theorem execWrite128_next (cnt : BitVec 4) (data : Word64) (s : State) (hc : cnt.toNat ≤ 8)
    (hb : s.ctx128.buf128.length < 16) :
    ∃ c, s.ctx128.take cnt (writeBytes cnt data) = some c ∧
      execWrite128 cnt data s = .next ((s.setCtx128 c).setLastCnt cnt) := by
  obtain ⟨v, -, ht⟩ := take128_eq s.ctx128 cnt (writeBytes cnt data) hb
  exact ⟨_, ht, by simp [execWrite128, (countLegal_iff cnt).2 hc, guard128_ok s _ hb, ht]⟩

/-- SUM32 under the buffer's bound writes the digest. -/
theorem execSum32_next (s : State) (d : Word32) (hd : d = final32 s.ctx32.h32 s.ctx32.buf32 s.ctx32.tlen32)
    (hb : s.ctx32.buf32.length < 4) : execSum32 s = .next (s.setResults (d.setWidth 64) 0) := by
  rw [hd]; exact guard32_ok s _ hb

/-- SUM128 under the buffer's bound writes both lanes. -/
theorem execSum128_next (s : State) (d : Lanes) (hd : d = final128 s.ctx128.lanes s.ctx128.buf128 s.ctx128.tlen128)
    (hb : s.ctx128.buf128.length < 16) : execSum128 s = .next (s.setResults d.h1 d.h2) := by
  rw [hd]; exact guard128_ok s _ hb

/-- SUM64 under the buffer's bound writes lane `h1`. -/
theorem execSum64_next (s : State) (d : Lanes) (hd : d = final128 s.ctx128.lanes s.ctx128.buf128 s.ctx128.tlen128)
    (hb : s.ctx128.buf128.length < 16) : execSum64 s = .next (s.setResults d.h1 0) := by
  rw [hd]; exact guard128_ok s _ hb

/-- Everything WRITE32 can do when it goes on. -/
theorem execWrite32_cases (cnt : BitVec 4) (data : Word64) (s t : State) (h : execWrite32 cnt data s = .next t) :
    (8 < cnt.toNat ∧ t = raiseCommandError .countRange s) ∨
      (cnt.toNat ≤ 8 ∧ s.ctx32.buf32.length < 4 ∧
        ∃ c, s.ctx32.take cnt (writeBytes cnt data) = some c ∧ t = (s.setCtx32 c).setLastCnt cnt) := by
  by_cases hc : cnt.toNat ≤ 8
  · by_cases hb : s.ctx32.buf32.length < 4
    · obtain ⟨c, ht, he⟩ := execWrite32_next cnt data s hc hb
      rw [he] at h; cases h
      exact .inr ⟨hc, hb, c, ht, rfl⟩
    · simp [execWrite32, (countLegal_iff cnt).2 hc, guard32_over s _ (Nat.le_of_not_lt hb), invariantFault] at h
  · have hf : countLegal cnt = false := countLegal_false cnt hc
    simp [execWrite32, hf] at h
    exact .inl ⟨by omega, h.symm⟩

/-- Everything WRITE128 can do when it goes on. -/
theorem execWrite128_cases (cnt : BitVec 4) (data : Word64) (s t : State) (h : execWrite128 cnt data s = .next t) :
    (8 < cnt.toNat ∧ t = raiseCommandError .countRange s) ∨
      (cnt.toNat ≤ 8 ∧ s.ctx128.buf128.length < 16 ∧
        ∃ c, s.ctx128.take cnt (writeBytes cnt data) = some c ∧ t = (s.setCtx128 c).setLastCnt cnt) := by
  by_cases hc : cnt.toNat ≤ 8
  · by_cases hb : s.ctx128.buf128.length < 16
    · obtain ⟨c, ht, he⟩ := execWrite128_next cnt data s hc hb
      rw [he] at h; cases h
      exact .inr ⟨hc, hb, c, ht, rfl⟩
    · simp [execWrite128, (countLegal_iff cnt).2 hc, guard128_over s _ (Nat.le_of_not_lt hb), invariantFault] at h
  · have hf : countLegal cnt = false := countLegal_false cnt hc
    simp [execWrite128, hf] at h
    exact .inl ⟨by omega, h.symm⟩

/-- Everything SUM32 can do when it goes on. The digest is a variable `d`, so that a proof about another field never has the
kernel compute it. -/
theorem execSum32_cases (s t : State) (h : execSum32 s = .next t) :
    s.ctx32.buf32.length < 4 ∧
      ∃ d, d = final32 s.ctx32.h32 s.ctx32.buf32 s.ctx32.tlen32 ∧ t = s.setResults (d.setWidth 64) 0 := by
  obtain ⟨hb, h⟩ := guard32_next _ _ _ h
  exact ⟨hb, _, rfl, (Host.Outcome.next.inj h).symm⟩

/-- Everything SUM128 can do when it goes on. -/
theorem execSum128_cases (s t : State) (h : execSum128 s = .next t) :
    s.ctx128.buf128.length < 16 ∧
      ∃ d, d = final128 s.ctx128.lanes s.ctx128.buf128 s.ctx128.tlen128 ∧ t = s.setResults d.h1 d.h2 := by
  obtain ⟨hb, h⟩ := guard128_next _ _ _ h
  exact ⟨hb, _, rfl, (Host.Outcome.next.inj h).symm⟩

/-- Everything SUM64 can do when it goes on. -/
theorem execSum64_cases (s t : State) (h : execSum64 s = .next t) :
    s.ctx128.buf128.length < 16 ∧
      ∃ d, d = final128 s.ctx128.lanes s.ctx128.buf128 s.ctx128.tlen128 ∧ t = s.setResults d.h1 0 := by
  obtain ⟨hb, h⟩ := guard128_next _ _ _ h
  exact ⟨hb, _, rfl, (Host.Outcome.next.inj h).symm⟩

/-- Everything any command can do when it goes on: one context, the result registers or STATUS is written, or nothing. -/
theorem exec_cases (i : Instr) (s t : State) (h : exec i s = .next t) :
    (∃ c, t = s.setCtx32 c) ∨ (∃ c, t = s.setCtx128 c) ∨ (∃ r0 r1, t = s.setResults r0 r1) ∨
      (∃ e, t = raiseCommandError e s) ∨ (∃ c cnt, t = (s.setCtx32 c).setLastCnt cnt) ∨
      (∃ c cnt, t = (s.setCtx128 c).setLastCnt cnt) := by
  cases i with
  | nop => cases h; exact .inl ⟨s.ctx32, rfl⟩
  | init32 seed => cases h; exact .inl ⟨_, rfl⟩
  | reset32 => cases h; exact .inl ⟨_, rfl⟩
  | write32 cnt data =>
    obtain ⟨-, rfl⟩ | ⟨-, -, c, -, rfl⟩ := execWrite32_cases cnt data s t h
    · exact .inr (.inr (.inr (.inl ⟨_, rfl⟩)))
    · exact .inr (.inr (.inr (.inr (.inl ⟨_, _, rfl⟩))))
  | sum32 => obtain ⟨-, d, -, rfl⟩ := execSum32_cases s t h; exact .inr (.inr (.inl ⟨_, _, rfl⟩))
  | size32 => cases h; exact .inr (.inr (.inl ⟨_, _, rfl⟩))
  | init128 a b => cases h; exact .inr (.inl ⟨_, rfl⟩)
  | init64 seed => cases h; exact .inr (.inl ⟨_, rfl⟩)
  | reset128 => cases h; exact .inr (.inl ⟨_, rfl⟩)
  | write128 cnt data =>
    obtain ⟨-, rfl⟩ | ⟨-, -, c, -, rfl⟩ := execWrite128_cases cnt data s t h
    · exact .inr (.inr (.inr (.inl ⟨_, rfl⟩)))
    · exact .inr (.inr (.inr (.inr (.inr ⟨_, _, rfl⟩))))
  | sum128 => obtain ⟨-, d, -, rfl⟩ := execSum128_cases s t h; exact .inr (.inr (.inl ⟨_, _, rfl⟩))
  | sum64 => obtain ⟨-, d, -, rfl⟩ := execSum64_cases s t h; exact .inr (.inr (.inl ⟨_, _, rfl⟩))
  | size128 => cases h; exact .inr (.inr (.inl ⟨_, _, rfl⟩))
  | size64 => cases h; exact .inr (.inr (.inl ⟨_, _, rfl⟩))

/-- No command touches the pins or the host's side. -/
theorem exec_host_side (i : Instr) (s t : State) (h : exec i s = .next t) :
    t.rst = s.rst ∧ t.program = s.program ∧ t.pc = s.pc ∧ t.schedule = s.schedule ∧ t.reads = s.reads ∧
      t.draws = s.draws := by
  obtain ⟨c, rfl⟩ | ⟨c, rfl⟩ | ⟨a, b, rfl⟩ | ⟨e, rfl⟩ | ⟨c, n, rfl⟩ | ⟨c, n, rfl⟩ := exec_cases i s t h <;> simp

/-- No command reads the pins or the host's side: with those changed, it does the same. -/
theorem exec_other_host (i : Instr) (s t : State) (r : Bool) (p : List Command) (k : Nat) (q : List HostMove)
    (v : List PortView) (d : Nat) (h : exec i s = .next t) :
    exec i { s with rst := r, program := p, pc := k, schedule := q, reads := v, draws := d } =
      .next { t with rst := r, program := p, pc := k, schedule := q, reads := v, draws := d } := by
  cases i with
  | nop => cases h; rfl
  | init32 seed => cases h; rfl
  | reset32 => cases h; rfl
  | write32 cnt data =>
    obtain ⟨hc, rfl⟩ | ⟨hc, hb, c, ht, rfl⟩ := execWrite32_cases cnt data s t h
    · simp [exec, execWrite32, countLegal_false cnt (by omega), raiseCommandError]
    · simp [exec, execWrite32, (countLegal_iff cnt).2 hc, guard32, Config.blk32, hb, ht]; rfl
  | sum32 => obtain ⟨hb, d, hd, rfl⟩ := execSum32_cases s t h; exact execSum32_next _ d hd hb
  | size32 => cases h; rfl
  | init128 a b => cases h; rfl
  | init64 seed => cases h; rfl
  | reset128 => cases h; rfl
  | write128 cnt data =>
    obtain ⟨hc, rfl⟩ | ⟨hc, hb, c, ht, rfl⟩ := execWrite128_cases cnt data s t h
    · simp [exec, execWrite128, countLegal_false cnt (by omega), raiseCommandError]
    · simp [exec, execWrite128, (countLegal_iff cnt).2 hc, guard128, Config.blk128, hb, ht]; rfl
  | sum128 => obtain ⟨hb, d, hd, rfl⟩ := execSum128_cases s t h; exact execSum128_next _ d hd hb
  | sum64 => obtain ⟨hb, d, hd, rfl⟩ := execSum64_cases s t h; exact execSum64_next _ d hd hb
  | size128 => cases h; rfl
  | size64 => cases h; rfl

/-- Under the buffers' bounds every command goes on. -/
theorem exec_goes_on (i : Instr) (s : State) (h : buffersOk s) : ∃ t, exec i s = .next t := by
  obtain ⟨h32, h128⟩ := h
  cases i with
  | nop => exact ⟨_, rfl⟩
  | init32 seed => exact ⟨_, rfl⟩
  | reset32 => exact ⟨_, rfl⟩
  | write32 cnt data =>
    by_cases hc : cnt.toNat ≤ 8
    · obtain ⟨c, -, he⟩ := execWrite32_next cnt data s hc h32
      exact ⟨_, he⟩
    · have hf : countLegal cnt = false := countLegal_false cnt hc
      exact ⟨raiseCommandError .countRange s, by simp [exec, execWrite32, hf]⟩
  | sum32 => exact ⟨_, guard32_ok s _ h32⟩
  | size32 => exact ⟨_, rfl⟩
  | init128 a b => exact ⟨_, rfl⟩
  | init64 seed => exact ⟨_, rfl⟩
  | reset128 => exact ⟨_, rfl⟩
  | write128 cnt data =>
    by_cases hc : cnt.toNat ≤ 8
    · obtain ⟨c, -, he⟩ := execWrite128_next cnt data s hc h128
      exact ⟨_, he⟩
    · have hf : countLegal cnt = false := countLegal_false cnt hc
      exact ⟨raiseCommandError .countRange s, by simp [exec, execWrite128, hf]⟩
  | sum128 => exact ⟨_, guard128_ok s _ h128⟩
  | sum64 => exact ⟨_, guard128_ok s _ h128⟩
  | size128 => exact ⟨_, rfl⟩
  | size64 => exact ⟨_, rfl⟩

/-- A sequence of commands run in two parts. -/
theorem execSeq_append (is js : List Instr) : ∀ s, execSeq (is ++ js) s = andThen (execSeq is s) (execSeq js) := by
  induction is with
  | nil => intro s; rfl
  | cons i is ih =>
    intro s
    simp only [List.cons_append, execSeq]
    cases exec i s with
    | next t => exact ih t
    | fault f => rfl
    | refused x => rfl

end Sys2Proof.Machine
end

