-- ==== Sys2Proof/Laws/PerInstr.lean ====
section
/-! SUPPORT. Statements made for every instruction, one lemma per constructor. -/

namespace Sys2Proof.Laws.CountBits

/-- In every encoded command word the reserved field is 0, and so is CNT unless the command carries a count (R72). -/
def Statement (i : Instr) : Prop :=
  rsvField (encode i).cmd = 0 ∧ (i.hasCount = false → cntField (encode i).cmd = 0)

/-- The reserved field of any encoded word is 0, and CNT holds the instruction's count bits. -/
theorem of_countBits (i : Instr) (h : i.hasCount = false → i.countBits = 0) : Statement i := by
  refine ⟨rsvField_commandWord i, fun hc => ?_⟩
  rw [show (encode i).cmd = i.commandWord from rfl, cntField_commandWord, h hc]

theorem nop : Statement .nop := of_countBits _ fun _ => rfl
theorem init32 (seed : Word32) : Statement (.init32 seed) := of_countBits _ fun _ => rfl
theorem reset32 : Statement .reset32 := of_countBits _ fun _ => rfl
theorem write32 (cnt : BitVec 4) (data : Word64) : Statement (.write32 cnt data) := of_countBits _ nofun
theorem sum32 : Statement .sum32 := of_countBits _ fun _ => rfl
theorem size32 : Statement .size32 := of_countBits _ fun _ => rfl
theorem init128 (seed1 seed2 : Word64) : Statement (.init128 seed1 seed2) := of_countBits _ fun _ => rfl
theorem init64 (seed : Word64) : Statement (.init64 seed) := of_countBits _ fun _ => rfl
theorem reset128 : Statement .reset128 := of_countBits _ fun _ => rfl
theorem write128 (cnt : BitVec 4) (data : Word64) : Statement (.write128 cnt data) := of_countBits _ nofun
theorem sum128 : Statement .sum128 := of_countBits _ fun _ => rfl
theorem sum64 : Statement .sum64 := of_countBits _ fun _ => rfl
theorem size128 : Statement .size128 := of_countBits _ fun _ => rfl
theorem size64 : Statement .size64 := of_countBits _ fun _ => rfl

end Sys2Proof.Laws.CountBits
end

