-- ==== Sys2Proof/Laws/Runs.lean ====
section
/-! SUPPORT. A run of WRITE commands takes its bytes as one byte-serial loop does, and ends with the reference's
blocks mixed (41_digest32.md R145, 42_digest128.md R169). -/

namespace Sys2Proof.Machine

/-- CTX32 after `n` bytes have left accumulator `h` and buffer `u`. -/
abbrev Ctx32.took (c : Ctx32) (h : Word32) (u : List Byte) (n : Nat) : Ctx32 :=
  { c with h32 := h, buf32 := u, tlen32 := c.tlen32 + BitVec.ofNat 64 n }

/-- CTX128 after `n` bytes have left lanes `l` and buffer `u`. -/
abbrev Ctx128.took (c : Ctx128) (l : Lanes) (u : List Byte) (n : Nat) : Ctx128 :=
  { c with h1 := l.h1, h2 := l.h2, buf128 := u, tlen128 := c.tlen128 + BitVec.ofNat 64 n }

/-- Writing one chunk of at most 8 bytes runs the loop over the chunk. -/
theorem write32Bytes_next (bs : List Byte) (s : State) (hl : bs.length ≤ 8) (hb : s.ctx32.buf32.length < 4) :
    ∃ h u cnt, absorb 4 mixBlock32 s.ctx32.h32 s.ctx32.buf32 bs = some (h, u) ∧ u.length < 4 ∧
      exec (write32Bytes bs) s =
        .next ((s.setCtx32 (s.ctx32.took h u bs.length)).setLastCnt cnt) := by
  have hc : (BitVec.ofNat 4 bs.length).toNat ≤ 8 := by simp; omega
  obtain ⟨c, ht, he⟩ := execWrite32_next (BitVec.ofNat 4 bs.length) (packBytes bs) s hc hb
  obtain ⟨h, u, ha⟩ := absorb_isSome (by decide : 0 < 4) (fun a s hs => ⟨_, mixBlock32_whole a s hs⟩) bs
    s.ctx32.h32 s.ctx32.buf32 hb
  have hu := absorb_length (by decide : 0 < 4) _ _ _ _ _ hb ha
  have hz : (BitVec.ofNat 4 bs.length).setWidth 64 = BitVec.ofNat 64 bs.length := by
    apply BitVec.eq_of_toNat_eq; simp; omega
  rw [writeBytes_packBytes bs hl] at ht
  simp only [Ctx32.take, Config.blk32, ha, Option.some.injEq, hz] at ht
  exact ⟨h, u, _, ha, by omega, by subst ht; exact he⟩

/-- The same for CTX128. -/
theorem write128Bytes_next (bs : List Byte) (s : State) (hl : bs.length ≤ 8) (hb : s.ctx128.buf128.length < 16) :
    ∃ l u cnt, absorb 16 mixBlock128 s.ctx128.lanes s.ctx128.buf128 bs = some (l, u) ∧ u.length < 16 ∧
      exec (write128Bytes bs) s =
        .next ((s.setCtx128 (s.ctx128.took l u bs.length)).setLastCnt cnt) := by
  have hc : (BitVec.ofNat 4 bs.length).toNat ≤ 8 := by simp; omega
  obtain ⟨c, ht, he⟩ := execWrite128_next (BitVec.ofNat 4 bs.length) (packBytes bs) s hc hb
  obtain ⟨l, u, ha⟩ := absorb_isSome (by decide : 0 < 16) (fun a s hs => ⟨_, mixBlock128_whole a s hs⟩) bs
    s.ctx128.lanes s.ctx128.buf128 hb
  have hu := absorb_length (by decide : 0 < 16) _ _ _ _ _ hb ha
  have hz : (BitVec.ofNat 4 bs.length).setWidth 64 = BitVec.ofNat 64 bs.length := by
    apply BitVec.eq_of_toNat_eq; simp; omega
  rw [writeBytes_packBytes bs hl] at ht
  simp only [Ctx128.take, Config.blk128, ha, Option.some.injEq, hz] at ht
  exact ⟨l, u, _, ha, by omega, by subst ht; exact he⟩

/-- Writing chunks of at most 8 bytes in turn runs the loop over all their bytes. -/
theorem writes32_next (chunks : List (List Byte)) : ∀ s : State, (∀ c ∈ chunks, c.length ≤ 8) →
    s.ctx32.buf32.length < 4 →
    ∃ h u t, absorb 4 mixBlock32 s.ctx32.h32 s.ctx32.buf32 chunks.flatten = some (h, u) ∧ u.length < 4 ∧
      execSeq (chunks.map write32Bytes) s = .next t ∧ t.ctx128 = s.ctx128 ∧
      t.ctx32 = s.ctx32.took h u chunks.flatten.length := by
  induction chunks with
  | nil => intro s _ hb; exact ⟨_, _, s, rfl, hb, rfl, rfl, by simp [Ctx32.took]⟩
  | cons c cs ih =>
    intro s hl hb
    obtain ⟨h, u, cnt, ha, hu, he⟩ := write32Bytes_next c s (hl c (by simp)) hb
    obtain ⟨h', u', t, ha', hu', he', h128, h32⟩ :=
      ih ((s.setCtx32 (s.ctx32.took h u c.length)).setLastCnt cnt)
        (fun c hc => hl c (by simp [hc])) (by simpa using hu)
    refine ⟨h', u', t, ?_, hu', ?_, by simpa using h128, ?_⟩
    · rw [List.flatten_cons, absorb_append, ha]; simpa using ha'
    · simp only [List.map_cons, execSeq, he, andThen_next, he']
    · simpa [Ctx32.took, BitVec.add_assoc, BitVec.ofNat_add] using h32

/-- The same for CTX128. -/
theorem writes128_next (chunks : List (List Byte)) : ∀ s : State, (∀ c ∈ chunks, c.length ≤ 8) →
    s.ctx128.buf128.length < 16 →
    ∃ l u t, absorb 16 mixBlock128 s.ctx128.lanes s.ctx128.buf128 chunks.flatten = some (l, u) ∧ u.length < 16 ∧
      execSeq (chunks.map write128Bytes) s = .next t ∧ t.ctx32 = s.ctx32 ∧
      t.ctx128 = s.ctx128.took l u chunks.flatten.length := by
  induction chunks with
  | nil => intro s _ hb; exact ⟨_, _, s, rfl, hb, rfl, rfl, by simp [Ctx128.took, Ctx128.lanes]⟩
  | cons c cs ih =>
    intro s hl hb
    obtain ⟨l, u, cnt, ha, hu, he⟩ := write128Bytes_next c s (hl c (by simp)) hb
    obtain ⟨l', u', t, ha', hu', he', h32, h128⟩ :=
      ih ((s.setCtx128 (s.ctx128.took l u c.length)).setLastCnt cnt)
        (fun c hc => hl c (by simp [hc])) (by simpa using hu)
    refine ⟨l', u', t, ?_, hu', ?_, by simpa using h32, ?_⟩
    · rw [List.flatten_cons, absorb_append, ha]; simpa [Ctx128.lanes] using ha'
    · simp only [List.map_cons, execSeq, he, andThen_next, he']
    · simpa [Ctx128.took, BitVec.add_assoc, BitVec.ofNat_add] using h128

/-- From an empty buffer, what the loop leaves is the reference function's blocks and the bytes after them. -/
theorem absorb32_fresh (seed h : Word32) (s u : List Byte) (ha : absorb 4 mixBlock32 seed [] s = some (h, u)) :
    blocks32 seed s (s.length / 4) = some h ∧ u = s.drop (4 * (s.length / 4)) := by
  rw [absorb_eq_mixBlocks (by decide) s seed [] (by decide), List.nil_append, Option.map_eq_some_iff] at ha
  obtain ⟨a, hm, he⟩ := ha
  rw [mixBlocks_eq_blocks32 _ _ _ (by omega)] at hm
  exact ⟨hm.trans (congrArg some (Prod.mk.inj he).1), (Prod.mk.inj he).2.symm⟩

/-- The same for the 128-bit reference function. -/
theorem absorb128_fresh (seeds l : Lanes) (s u : List Byte) (ha : absorb 16 mixBlock128 seeds [] s = some (l, u)) :
    blocks128 seeds s (s.length / 16) = some l ∧ u = s.drop (16 * (s.length / 16)) := by
  rw [absorb_eq_mixBlocks (by decide) s seeds [] (by decide), List.nil_append, Option.map_eq_some_iff] at ha
  obtain ⟨a, hm, he⟩ := ha
  rw [mixBlocks_eq_blocks128 _ _ _ (by omega)] at hm
  exact ⟨hm.trans (congrArg some (Prod.mk.inj he).1), (Prod.mk.inj he).2.symm⟩

/-- The pieces of a byte sequence have at most 8 bytes each. -/
theorem pieces8_length (s : List Byte) : ∀ c ∈ pieces8 s, c.length ≤ 8 := by
  intro c hc
  simp only [pieces8, List.mem_map] at hc
  obtain ⟨j, -, rfl⟩ := hc
  simp

/-- The first `n` pieces are the first `8 n` bytes. -/
theorem flatten_pieces (s : List Byte) (n : Nat) :
    ((List.range n).map fun j => (s.drop (8 * j)).take 8).flatten = s.take (8 * n) := by
  induction n with
  | zero => simp
  | succ n ih =>
    rw [List.range_succ, List.map_append, List.flatten_append, ih, Nat.mul_succ, List.take_add]
    simp

/-- The pieces of a byte sequence make it up. -/
theorem pieces8_flatten (s : List Byte) : (pieces8 s).flatten = s := by
  rw [pieces8, flatten_pieces]
  exact List.take_of_length_le (by omega)

end Sys2Proof.Machine
end

