-- ==== Sys2Proof/Laws/Step.lean ====
section
/-! SUPPORT. Everything one step can do. -/

namespace Sys2Proof.Machine

/-- The state with its next scheduled move taken off. -/
abbrev State.popMove (s : State) : State := { s with schedule := s.schedule.tail }

theorem issueCommand_cases (n : Nat) (s : State) :
    issueCommand n s = .next s ∨
      ∃ c, s.program[s.pc]? = some c ∧ s.rst = false ∧ issueCommand n s = runCommand c (State.readBusy n s.advance) := by
  unfold issueCommand State.presented State.cmdReady
  cases hp : s.program[s.pc]? with
  | none => exact .inl rfl
  | some c =>
    cases hr : s.rst with
    | true => exact .inl rfl
    | false => exact .inr ⟨c, rfl, rfl, rfl⟩

theorem abortCommand_cases (n : Nat) (s : State) :
    abortCommand n s = .next (s.driveRst true) ∨
      ∃ c, s.program[s.pc]? = some c ∧ s.rst = false ∧
        abortCommand n s = .next ((State.readBusy n s.advance).driveRst true) := by
  unfold abortCommand State.presented State.cmdReady
  cases hp : s.program[s.pc]? with
  | none => exact .inl rfl
  | some c =>
    cases hr : s.rst with
    | true => exact .inl rfl
    | false => exact .inr ⟨c, rfl, rfl, rfl⟩

/-- A step runs an accepted command, abandons one, reads the port, drives `rst`, or changes nothing but the schedule. -/
theorem step_cases (s : State) :
    step s = .next s.popMove ∨
      (∃ n c, s.program[s.pc]? = some c ∧ s.rst = false ∧ step s = runCommand c (State.readBusy n s.popMove.advance)) ∨
      (∃ n c, s.program[s.pc]? = some c ∧ s.rst = false ∧
        step s = .next ((State.readBusy n s.popMove.advance).driveRst true)) ∨
      step s = .next s.popMove.hostRead ∨ ∃ level, step s = .next (s.popMove.driveRst level) := by
  have hissue : ∀ n, step s = issueCommand n s.popMove →
      step s = .next s.popMove ∨
        ∃ n c, s.program[s.pc]? = some c ∧ s.rst = false ∧ step s = runCommand c (State.readBusy n s.popMove.advance) := by
    intro n hs
    obtain h | ⟨c, hp, hr, h⟩ := issueCommand_cases n s.popMove
    · exact .inl (hs.trans h)
    · exact .inr ⟨n, c, hp, hr, hs.trans h⟩
  have hpop : ∀ m rest, s.schedule = m :: rest → step s = hostMove m s.popMove := by
    intro m rest h; simp [step, nextMove, h, State.popMove]
  cases hs : s.schedule with
  | nil =>
    have : s.popMove = s := by cases s; simp_all [State.popMove]
    obtain h | h := hissue 0 (by rw [this]; simp [step, nextMove, hs])
    · exact .inl h
    · exact .inr (.inl h)
  | cons m rest =>
    have hm := hpop m rest hs
    cases m with
    | issue => obtain h | h := hissue 0 hm; exacts [.inl h, .inr (.inl h)]
    | issueReading n => obtain h | h := hissue n hm; exacts [.inl h, .inr (.inl h)]
    | issueAborted n =>
      obtain h | ⟨c, hp, hr, h⟩ := abortCommand_cases n s.popMove
      · exact .inr (.inr (.inr (.inr ⟨true, hm.trans h⟩)))
      · exact .inr (.inr (.inl ⟨n, c, hp, hr, hm.trans h⟩))
    | read => exact .inr (.inr (.inr (.inl hm)))
    | driveRst level => exact .inr (.inr (.inr (.inr ⟨level, hm⟩)))

/-- Issuing runs the presented command exactly when one is left and `rst` is low. -/
theorem issueCommand_eq (n : Nat) (s : State) :
    issueCommand n s =
      match (if s.cmdReady then s.presented else none) with
      | none => .next s
      | some c => runCommand c (State.readBusy n s.advance) := by
  unfold issueCommand
  cases s.presented <;> cases s.cmdReady <;> rfl

/-- A step that resets nothing runs the command it accepts; where it accepts none it reads the port, or changes nothing but the
schedule. -/
theorem step_cases_of_no_reset (s : State) (h : resetsNext s = false) :
    (acceptedNext s = none ∧ (step s = .next s.popMove ∨ step s = .next s.popMove.hostRead)) ∨
      ∃ n c, acceptedNext s = some c ∧ step s = runCommand c (State.readBusy n s.popMove.advance) := by
  have hissue : ∀ n, acceptedNext s = (if s.popMove.cmdReady then s.popMove.presented else none) →
      step s = issueCommand n s.popMove →
      (acceptedNext s = none ∧ (step s = .next s.popMove ∨ step s = .next s.popMove.hostRead)) ∨
        ∃ n c, acceptedNext s = some c ∧ step s = runCommand c (State.readBusy n s.popMove.advance) := by
    intro n ha hs
    rw [issueCommand_eq, ← ha] at hs
    cases hc : acceptedNext s with
    | none => rw [hc] at hs; exact .inl ⟨rfl, .inl hs⟩
    | some c => rw [hc] at hs; exact .inr ⟨n, c, rfl, hs⟩
  cases hs : s.schedule with
  | nil =>
    have : s.popMove = s := by cases s; simp_all [State.popMove]
    exact hissue 0 (by rw [this, acceptedNext, hs]) (by rw [this, step, nextMove, hs])
  | cons m rest =>
    have hm : step s = hostMove m s.popMove := by simp [step, nextMove, hs, State.popMove]
    cases m with
    | issue => exact hissue 0 (by rw [acceptedNext, hs]; rfl) hm
    | issueReading n => exact hissue n (by rw [acceptedNext, hs]; rfl) hm
    | issueAborted n => simp [resetsNext, hs] at h
    | read => exact .inl ⟨by rw [acceptedNext, hs], .inr hm⟩
    | driveRst level =>
      simp only [resetsNext, hs, Bool.or_eq_false_iff] at h
      rw [h.2] at hm
      exact .inl ⟨by rw [acceptedNext, hs], .inl (hm.trans (congrArg Host.Outcome.next (driveRst_idle s.popMove h.1)))⟩

/-- An accepted command is the one at `pc`, and `rst` is low. -/
theorem acceptedNext_eq_some (s : State) (c : Command) (h : acceptedNext s = some c) :
    s.rst = false ∧ s.program[s.pc]? = some c := by
  have hif : (if s.cmdReady then s.presented else none) = some c → s.rst = false ∧ s.program[s.pc]? = some c := by
    cases hr : s.rst <;> simp [State.cmdReady, State.presented, hr]
  unfold acceptedNext at h
  split at h <;> first | exact hif h | cases h

/-- What an accepted command decodes to. -/
theorem acceptedInstr_of_decode (s : State) (c : Command) (i : Instr) (h : acceptedNext s = some c) (hd : decode c = .ok i) :
    acceptedInstr s = some i := by
  simp [acceptedInstr, h, hd, Except.toOption]

/-- The step that drives `rst`, in every case. -/
theorem step_driveRst (s : State) (level : Bool) (rest : List HostMove) (h : s.schedule = .driveRst level :: rest) :
    step s = .next (({ s with schedule := rest } : State).driveRst level) := by
  rw [step, nextMove, h]; rfl

/-- A command that decodes runs as its meaning; one that does not records its error. -/
theorem runCommand_ok (c : Command) (i : Instr) (s : State) (h : decode c = .ok i) : runCommand c s = exec i s := by
  simp [runCommand, h]

theorem runCommand_error (c : Command) (e : CommandError) (s : State) (h : decode c = .error e) :
    runCommand c s = .next (raiseCommandError e s) := by
  simp [runCommand, h]

/-- A host read changes only what the host has read and the draw counter. -/
theorem hostRead_keeps (s : State) :
    s.hostRead.ctx32 = s.ctx32 ∧ s.hostRead.ctx128 = s.ctx128 ∧ s.hostRead.res0 = s.res0 ∧ s.hostRead.res1 = s.res1 ∧
      s.hostRead.status = s.status ∧ s.hostRead.rst = s.rst ∧ s.hostRead.program = s.program ∧ s.hostRead.pc = s.pc ∧
      s.hostRead.schedule = s.schedule := by
  unfold State.hostRead
  split <;> simp

end Sys2Proof.Machine
end

