-- ==== Sys2Proof/Tests/Slice0.lean ====
section
/-! SUPPORT. The model's own tests. Expected values come from spec/: encodings from 30_encoding.md R72 and R76, results from the
source's vectors S1 to S5 and the derived vectors and programs P1 to P6 of 95_test_vectors.md. The last part shows, for every
statement with hypotheses, concrete values that meet them. -/

namespace Sys2Proof.Tests

open Sys2Proof Sys2Proof.Machine

/-! ### Well-formedness -/

theorem test_wf_refuses_count_9 : (Instr.write32 9 0).wf = false ∧ (Instr.write128 9 0).wf = false := by decide
theorem test_wf_refuses_count_15 : (Instr.write32 15 0).wf = false ∧ (Instr.write128 15 0).wf = false := by decide
theorem test_wf_allows_counts_0_and_8 :
    (Instr.write32 0 0).wf = true ∧ (Instr.write32 8 0).wf = true ∧ (Instr.write128 0 0).wf = true ∧
      (Instr.write128 8 0).wf = true := by decide
theorem test_wf_allows_every_seed : (Instr.init32 0xFFFFFFFF).wf = true ∧ (Instr.init64 0xFFFFFFFFFFFFFFFF).wf = true := by
  decide

/-! ### Decoding: the words written out from R72 and R76, RSV then CNT then OP -/

theorem test_decode_nop : decode ⟨0b00000000000000000000_0000_00000000, 7, 7⟩ = .ok .nop := by decide
/-- The upper half of OPA is ignored (spec/95 section 3.4). -/
theorem test_decode_init32 :
    decode ⟨0b00000000000000000000_0000_00000001, 0xDEADBEEF0000002A, 0⟩ = .ok (.init32 0x2A) := by decide
theorem test_decode_reset32 : decode ⟨0b00000000000000000000_0000_00000010, 0, 0⟩ = .ok .reset32 := by decide
theorem test_decode_write32 :
    decode ⟨0b00000000000000000000_1000_00000011, 0x006C006C00650048, 9⟩ = .ok (.write32 8 0x006C006C00650048) := by decide
theorem test_decode_sum32 : decode ⟨0b00000000000000000000_0000_00000100, 0, 0⟩ = .ok .sum32 := by decide
theorem test_decode_size32 : decode ⟨0b00000000000000000000_0000_00000101, 0, 0⟩ = .ok .size32 := by decide
theorem test_decode_init128 : decode ⟨0b00000000000000000000_0000_00010000, 1, 2⟩ = .ok (.init128 1 2) := by decide
/-- OPB is ignored (spec/95 section 3.5). -/
theorem test_decode_init64 : decode ⟨0b00000000000000000000_0000_00010001, 5, 0x1234⟩ = .ok (.init64 5) := by decide
theorem test_decode_reset128 : decode ⟨0b00000000000000000000_0000_00010010, 0, 0⟩ = .ok .reset128 := by decide
theorem test_decode_write128 :
    decode ⟨0b00000000000000000000_0010_00010011, 0x21, 0⟩ = .ok (.write128 2 0x21) := by decide
theorem test_decode_sum128 : decode ⟨0b00000000000000000000_0000_00010100, 0, 0⟩ = .ok .sum128 := by decide
theorem test_decode_sum64 : decode ⟨0b00000000000000000000_0000_00010101, 0, 0⟩ = .ok .sum64 := by decide
theorem test_decode_size128 : decode ⟨0b00000000000000000000_0000_00010110, 0, 0⟩ = .ok .size128 := by decide
theorem test_decode_size64 : decode ⟨0b00000000000000000000_0000_00010111, 0, 0⟩ = .ok .size64 := by decide

/-- spec/95 section 4: the unassigned opcodes, code 1 first. -/
theorem test_decode_illegal_opcodes :
    decode ⟨0x00000006, 0, 0⟩ = .error .illegalOpcode ∧
      decode ⟨0x0000000F, 0, 0⟩ = .error .illegalOpcode ∧
      decode ⟨0x00000018, 0, 0⟩ = .error .illegalOpcode ∧
      decode ⟨0x000000FF, 0, 0⟩ = .error .illegalOpcode ∧
      decode ⟨0xFFFFFFFF, 0, 0⟩ = .error .illegalOpcode := by decide
/-- spec/95 section 4: reserved fields, code 2 before code 3. -/
theorem test_decode_reserved_fields :
    decode ⟨0x00001000, 0, 0⟩ = .error .reservedField ∧
      decode ⟨0x00000100, 0, 0⟩ = .error .reservedField ∧
      decode ⟨0x00000104, 0, 0⟩ = .error .reservedField ∧
      decode ⟨0x00001104, 0, 0⟩ = .error .reservedField ∧
      decode ⟨0x00001903, 0, 0⟩ = .error .reservedField ∧
      decode ⟨0x80000013, 0, 0⟩ = .error .reservedField := by decide
/-- spec/95 section 4: counts above 8. -/
theorem test_decode_count_range :
    decode ⟨0x00000903, 0, 0⟩ = .error .countRange ∧
      decode ⟨0x00000F03, 0, 0⟩ = .error .countRange ∧
      decode ⟨0x00000913, 0, 0⟩ = .error .countRange ∧
      decode ⟨0x00000F13, 0, 0⟩ = .error .countRange := by decide

/-- The table's numbering: `cmd` in bits 31:0, `opa` above it, `opb` above that (log 2). -/
theorem test_decodeTableWord :
    decodeTableWord 32 0x00000803 = some (.write32 8 0) ∧ decodeTableWord 32 0x00000006 = none ∧
      decodeTableWord 160 0x0000000000000002_0000000000000001_00000010 = some (.init128 1 2) ∧
      decodeTableWord 32 0x0000000000000001_00000010 = some (.init128 0 0) := by decide

/-- R80: the byte-list form, any case; R81: WRITE64 is WRITE128. -/
theorem test_assemble_byte_list :
    assemble "write32" [.bytes [0x74, 0x65, 0x73, 0x74]] = some [⟨0x00000403, 0x0000000074736574, 0⟩] ∧
      assemble "WRITE64" [.num 2, .num 0x21] = some [⟨0x00000213, 0x21, 0⟩] ∧
      assemble "INIT32" [] = some [⟨0x00000001, 0, 0⟩] := by decide
/-- R81: ONESHOT32 with 9 bytes is INIT32, two WRITE32 of 8 and 1 bytes, SUM32. -/
theorem test_assemble_oneshot :
    assemble "ONESHOT32" [.num 1, .bytes [0, 1, 2, 3, 4, 5, 6, 7, 8]] =
      some [⟨0x00000001, 1, 0⟩, ⟨0x00000803, 0x0706050403020100, 0⟩, ⟨0x00000103, 0x08, 0⟩, ⟨0x00000004, 0, 0⟩] := by decide

/-! ### The datapath (spec/95 sections 3.1 to 3.3) -/

theorem test_rotl : rotl 0x12345678#32 15 = 0x2B3C091A ∧ rotl 0x0123456789ABCDEF#64 33 = 0x13579BDE02468ACF := by decide
theorem test_le_reads_little_endian :
    le32 [0x48, 0x00, 0x65, 0x00] 0 = some 0x00650048 ∧ le32 [0x48, 0x00, 0x65] 0 = none := by decide
theorem test_mixer32 :
    kmix32 0x6C6C6548 = 0x0153080C ∧ round32 0x2A 0x00650048 = 0x9885D8F0 ∧ fmix32 0x80000000 = 0x6D3C65A0 ∧
      tail32 0 [1, 2, 3] = 0x041E542F := by decide
/-- Only the low half of the length takes part in the 32-bit finalization. -/
theorem test_final32_low_length : final32 0 [] 0x100000001 = 0x514E28B7 := by decide
theorem test_kmix_and_fmix64 :
    kmix1 1 = 0x34E09D0B6BDEFE38 ∧ kmix2 1 = 0x4E26F5539BB7C37E ∧ fmix64 26 = 0x8707DC23B1C9B4EE := by decide
theorem test_round128 : round128 ⟨1, 2⟩ 3 4 = ⟨0xECB36636509B245C, 0x5FD47396D5F3B783⟩ := by decide
theorem test_tail128_both_lanes :
    tail128 ⟨0, 0⟩ [0, 1, 2, 3, 4, 5, 6, 7, 8] = ⟨0xDF62D7CBEAB5358E, 0x3BB5526B0042C39A⟩ := by decide

/-! ### One step of each command -/

/-- The reset state with CTX32 seeded by `seed`, at accumulator `h`, with these buffered bytes and this length. -/
def with32 (seed h : Word32) (buf : List Byte) (len : Word64) : State :=
  { State.reset with ctx32 := { seed32 := seed, h32 := h, buf32 := buf, tlen32 := len } }

/-- The reset state with CTX128 seeded by `a` and `b`, at lanes `h1` and `h2`, with these buffered bytes and this length. -/
def with128 (a b h1 h2 : Word64) (buf : List Byte) (len : Word64) : State :=
  { State.reset with ctx128 := { seed1 := a, seed2 := b, h1 := h1, h2 := h2, buf128 := buf, tlen128 := len } }

/-- The state after one step of `s` with command `(cmd, opa, opb)` next. -/
def afterCommand (cmd : Word32) (opa opb : Word64) (s : State) : Option State :=
  nextOf (step { s with program := [⟨cmd, opa, opb⟩] })

/-- CTX32 after one command. -/
def ctx32After (cmd : Word32) (opa : Word64) (s : State) : Option Ctx32 := (afterCommand cmd opa 0 s).map (·.ctx32)

/-- CTX128 after one command. -/
def ctx128After (cmd : Word32) (opa opb : Word64) (s : State) : Option Ctx128 := (afterCommand cmd opa opb s).map (·.ctx128)

/-- The outputs after one command. -/
def viewAfter (cmd : Word32) (opa : Word64) (s : State) : Option PortView := (afterCommand cmd opa 0 s).map (·.observation)

theorem test_nop_only_advances :
    afterCommand 0x00000000 5 6 State.reset = some { State.reset with program := [⟨0, 5, 6⟩], pc := 1 } := by decide
/-- P2 step 1. -/
theorem test_init32 : ctx32After 0x00000001 0xDEADBEEF0000002A (with32 1 2 [3] 4) = some ⟨0x2A, 0x2A, [], 0⟩ := by decide
/-- R141. -/
theorem test_reset32 : ctx32After 0x00000002 0 (with32 0x2A 0x9885D8F0 [0x6C] 5) = some ⟨0x2A, 0x2A, [], 0⟩ := by decide
/-- P1 step 1: two blocks in one command. -/
theorem test_write32_two_blocks :
    ctx32After 0x00000803 0x006C006C00650048 State.reset = some ⟨0, 0x8B902A59, [], 8⟩ ∧
      viewAfter 0x00000803 0x006C006C00650048 State.reset = some ⟨0, 0, 0x00000800⟩ := by decide
/-- P2 step 3: a block completed from the buffer. -/
theorem test_write32_from_buffer :
    ctx32After 0x00000503 0x6C006C00 (with32 0x2A 0x2A [0x48, 0x00, 0x65] 3) = some ⟨0x2A, 0xB3902A5E, [], 8⟩ := by decide
/-- P1 step 5, source vector S1. -/
theorem test_sum32 : viewAfter 0x00000004 0 (with32 0 0x433D2766 [0x21, 0x00] 26) = some ⟨0x69F22021, 0, 0⟩ := by decide
/-- P2 step 7, source vector S2. -/
theorem test_sum32_seeded :
    viewAfter 0x00000004 0 (with32 0x2A 0x2E6DA766 [0x21, 0x00] 26) = some ⟨0x16580BD7, 0, 0⟩ := by decide
theorem test_size32 : viewAfter 0x00000005 0 { State.reset with res0 := 1, res1 := 2 } = some ⟨4, 0, 0⟩ := by decide
/-- P4 step 1. -/
theorem test_init128 : ctx128After 0x00000010 1 2 (with128 9 9 9 9 [9] 9) = some ⟨1, 2, 1, 2, [], 0⟩ := by decide
theorem test_init64 : ctx128After 0x00000011 5 0x1234 (with128 9 9 9 9 [9] 9) = some ⟨5, 5, 5, 5, [], 0⟩ := by decide
/-- P4 step 4. -/
theorem test_reset128 : ctx128After 0x00000012 0 0 (with128 1 2 3 4 [0, 1, 2] 13) = some ⟨1, 2, 1, 2, [], 0⟩ := by decide
/-- P3 step 2: a block completed from the buffer. -/
theorem test_write128_from_buffer :
    ctx128After 0x00000813 0x00570020002C006F 0 (with128 0 0 0 0 [0x48, 0, 0x65, 0, 0x6C, 0, 0x6C, 0] 8) =
      some ⟨0, 0, 0x5CB57358126A2ACC, 0xD87CC7A408308A96, [], 16⟩ := by decide
/-- P3 step 4: bytes that complete no block are buffered. -/
theorem test_write128_buffers :
    ctx128After 0x00000213 0xFFFF0021 0 (with128 0 0 1 2 [0x6F, 0, 0x72, 0, 0x6C, 0, 0x64, 0] 24) =
      some ⟨0, 0, 1, 2, [0x6F, 0, 0x72, 0, 0x6C, 0, 0x64, 0, 0x21, 0], 26⟩ := by decide

/-- CTX128 after P3 step 4. -/
def hwCtx128 : State :=
  with128 0 0 0x5CB57358126A2ACC 0xD87CC7A408308A96 [0x6F, 0, 0x72, 0, 0x6C, 0, 0x64, 0, 0x21, 0] 26

/-- P3 step 5, source vector S4. -/
theorem test_sum128 : viewAfter 0x00000014 0 hwCtx128 = some ⟨0x9E35891E140ABB8C, 0x29DF5E07A6C72ABB, 0⟩ := by decide
/-- P3 step 6, source vector S3. -/
theorem test_sum64 : viewAfter 0x00000015 0 hwCtx128 = some ⟨0x9E35891E140ABB8C, 0, 0⟩ := by decide
theorem test_size128 : viewAfter 0x00000016 0 { State.reset with res1 := 2 } = some ⟨16, 0, 0⟩ := by decide
theorem test_size64 : viewAfter 0x00000017 0 { State.reset with res1 := 2 } = some ⟨8, 0, 0⟩ := by decide

/-- The length counter wraps (R24). -/
theorem test_tlen32_wraps : ctx32After 0x00000203 0 (with32 0 0 [] 0xFFFFFFFFFFFFFFFF) = some ⟨0, 0, [0, 0], 1⟩ := by decide

/-! ### Command errors (spec/95 section 4, and program P5) -/

theorem test_error_codes :
    viewAfter 0x00000006 0 State.reset = some ⟨0, 0, 0x00000011⟩ ∧
      viewAfter 0x00000104 0 State.reset = some ⟨0, 0, 0x00000021⟩ ∧
      viewAfter 0x00000903 0 State.reset = some ⟨0, 0, 0x00000031⟩ := by decide

/-- A second error keeps the first code, and a legal WRITE after it still writes LASTCNT. -/
theorem test_error_sticky :
    viewAfter 0x00000903 0 { State.reset with status := ⟨true, some .illegalOpcode, 8⟩ } = some ⟨0, 0, 0x00000811⟩ ∧
      viewAfter 0x00000203 0x21 { State.reset with status := ⟨true, some .illegalOpcode, 0⟩ } =
        some ⟨0, 0, 0x00000211⟩ := by decide

/-! ### The port -/

/-- The program is loaded where the next step issues from. -/
theorem test_withFetchWord :
    (nextOf (step (State.reset.withFetchWord 32 0x00000016))).map (·.observation) = some ⟨16, 0, 0⟩ ∧
      (nextOf (step (({ State.reset with pc := 2, rst := true }).withFetchWord 32 0x00000005))).map (·.observation) =
        some ⟨4, 0, 0⟩ := by decide

/-- A command is not accepted while `rst = 1`. -/
theorem test_reset_holds_off :
    (afterCommand 0x00000005 0 0 { State.reset with rst := true }).map (fun t => (t.res0, t.pc)) = some (0, 0) := by decide

/-- A read while the engine is ready gives the registers. -/
theorem test_read_when_ready :
    (nextOf (step { State.reset with res0 := 4, schedule := [.read] })).map (·.reads) = some [⟨4, 0, 0⟩] := by decide

/-! ### The hypotheses of the statements are met -/

theorem test_witness_DecodeInvertsEncode :
    (Instr.write32 8 1).wf = true ∧ (Instr.init128 1 2).wf = true := by decide

theorem test_witness_DecodedWordsAreCanonical : decode ⟨0x00000813, 1, 2⟩ = .ok (.write128 8 1) := by decide

/-- Words for each branch of the decoder, at the bounds of its ranges. -/
theorem test_witness_DecodeChecksInOrder :
    0x00000006 % 256 ∉ [0x00, 0x01, 0x02, 0x03, 0x04, 0x05, 0x10, 0x11, 0x12, 0x13, 0x14, 0x15, 0x16, 0x17] ∧
      (0x00001000 % 256 ∈ [0x00, 0x01, 0x02, 0x03, 0x04, 0x05, 0x10, 0x11, 0x12, 0x13, 0x14, 0x15, 0x16, 0x17] ∧
        0x00001000 / 4096 ≠ 0) ∧
      (0x00000104 / 4096 = 0 ∧ 0x00000104 % 256 ∉ [0x03, 0x13] ∧ 0x00000104 / 256 % 16 ≠ 0) ∧
      (0x00000903 / 4096 = 0 ∧ 0x00000903 % 256 ∈ [0x03, 0x13] ∧ 8 < 0x00000903 / 256 % 16) ∧
      (0x00000803 / 4096 = 0 ∧ 0x00000803 % 256 ∈ [0x03, 0x13] ∧ 0x00000803 / 256 % 16 ≤ 8) := by decide

theorem test_witness_DecodeMeetsTheOpcodeTable :
    (⟨"WRITE32", 0x00000003, 0xFFFFF0FF, true⟩ : OpcodeRow) ∈ opcodeRows ∧
      (⟨"WRITE32", 0x00000003, 0xFFFFF0FF, true⟩ : OpcodeRow).selects 0x00000803 = true ∧
      decode ⟨0x00000803, 0, 0⟩ = .ok (.write32 8 0) := by decide

theorem test_witness_DecodeReadsTheListedOperands :
    decode ⟨0x00000001, 0xFFFFFFFFFFFFFFFF, 0⟩ = .ok (.init32 0xFFFFFFFF) ∧
      decode ⟨0x00000003, 1, 0⟩ = .ok (.write32 0 1) ∧ decode ⟨0x00000813, 1, 0⟩ = .ok (.write128 8 1) ∧
      decode ⟨0x00000010, 1, 2⟩ = .ok (.init128 1 2) ∧ decode ⟨0x00000011, 1, 2⟩ = .ok (.init64 1) := by decide

/-- WRITE32 1 with data that agree on one byte only: the operand premises of the other commands hold by their opcodes. -/
theorem test_witness_IgnoredOperandBitsHaveNoEffect :
    0x103 % 256 ≠ 0x01 ∧ 0x103 % 256 ≠ 0x10 ∧ 0x103 % 256 ≠ 0x11 ∧ 0x103 % 256 = 0x03 ∧
      0x12AB % 2 ^ (8 * (0x103 / 256 % 16)) = 0x34AB % 2 ^ (8 * (0x103 / 256 % 16)) := by decide

theorem test_witness_AssemblerGivesEachCommand :
    (Instr.write32 8 1).wf = true ∧ ([1, 2, 3, 4, 5, 6, 7, 8] : List Byte).length ≤ 8 := by decide

/-- A state with SIZE32 next and nothing else. -/
def sizeNext : State := { State.reset with program := [⟨0x00000005, 0, 0⟩] }

/-- A state with an illegal command next and nothing else. -/
def illegalNext : State := { State.reset with program := [⟨0x00000006, 0, 0⟩] }

theorem test_witness_StepRunsTheDecodedCommand :
    sizeNext.rst = false ∧ sizeNext.program[sizeNext.pc]? = some ⟨0x00000005, 0, 0⟩ ∧
      decode ⟨0x00000005, 0, 0⟩ = .ok .size32 ∧ sizeNext.schedule = [] ∧
      ({ sizeNext with schedule := [.issue, .read] } : State).schedule = .issue :: [.read] := by decide

theorem test_witness_CommandErrorsOnlyRecord :
    (illegalNext.rst = false ∧ illegalNext.schedule = [] ∧ illegalNext.program[illegalNext.pc]? = some ⟨0x00000006, 0, 0⟩ ∧
        decode ⟨0x00000006, 0, 0⟩ = .error .illegalOpcode) ∧
      ∃ f, exec .sum32 (with32 0 0 [1, 2, 3, 4] 4) = .fault f := ⟨by decide, _, rfl⟩

theorem test_witness_EngineWaitsForCommands :
    State.reset.schedule = [] ∧ State.reset.program.length ≤ State.reset.pc := by decide

theorem test_witness_ResetHoldsOffCommands :
    ({ sizeNext with rst := true } : State).rst = true ∧ ({ sizeNext with rst := true } : State).schedule = [] ∧
      ({ sizeNext with rst := true, schedule := [.issue] } : State).schedule = .issue :: [] ∧
      ({ sizeNext with rst := true, schedule := [.issueReading 2] } : State).schedule = .issueReading 2 :: [] ∧
      ({ sizeNext with rst := true, schedule := [.driveRst false] } : State).schedule = .driveRst false :: [] ∧
      (({ sizeNext with schedule := [.issueAborted 2] } : State).schedule = .issueAborted 2 :: [] ∧ sizeNext.rst = false ∧
        sizeNext.pc < sizeNext.program.length) ∧
      (({ sizeNext with pc := 1, schedule := [.issueAborted 2] } : State).schedule = .issueAborted 2 :: [] ∧
        sizeNext.program.length ≤ 1) := by decide

theorem test_witness_HardwareResetSetsEveryValue :
    ({ with32 1 2 [3] 4 with schedule := [.driveRst true] } : State).schedule = .driveRst true :: [] := by decide

theorem test_witness_AbortedCommandLeavesNoTrace :
    sizeNext.rst = false ∧ sizeNext.program[sizeNext.pc]? = some ⟨0x00000005, 0, 0⟩ ∧
      ({ sizeNext with schedule := [.issueAborted 0] } : State).schedule = .issueAborted 0 :: [] := by decide

theorem test_witness_HostReadsShowTheRegisters :
    (sizeNext.rst = false ∧ ({ sizeNext with schedule := [.read] } : State).schedule = .read :: []) ∧
      ({ sizeNext with rst := true, schedule := [.read] } : State).rst = true := by decide

/-- One command left and accepted, none left, and `rst` high. -/
theorem test_witness_BusyReadsDisturbNothing :
    (∃ t, step { sizeNext with schedule := .issue :: [] } = .next t ∧ t.res0 = 4) ∧
      (sizeNext.rst = false ∧ sizeNext.pc < sizeNext.program.length) ∧
      (sizeNext.program.length ≤ 1 ∧ ∃ t, step { sizeNext with pc := 1, schedule := .issue :: [] } = .next t) ∧
      ∃ t, step { sizeNext with rst := true, schedule := .issue :: [] } = .next t :=
  ⟨⟨_, rfl, by decide⟩, by decide, ⟨by decide, _, rfl⟩, _, rfl⟩

theorem test_witness_HostProgramRunsInOrder :
    sizeNext.rst = false ∧ sizeNext.schedule = [] ∧ (∀ i ∈ [Instr.size32], i.wf = true) ∧
      sizeNext.program.drop sizeNext.pc = [Instr.size32].map encode ∧ sizeNext.pc ≤ sizeNext.program.length ∧
      ∃ t, execSeq [Instr.size32] sizeNext = .next t :=
  ⟨by decide, by decide, by decide, by decide, by decide, _, rfl⟩

/-- Counts 0 and 8, and the fullest legal buffer, for the loop form and the block form. -/
theorem test_witness_Write32 :
    (0#4).toNat ≤ 8 ∧ (8#4).toNat ≤ 8 ∧ (with32 0 0 [1, 2, 3] 3).ctx32.buf32.length < 4 := by decide

theorem test_witness_Write128 :
    (0#4).toNat ≤ 8 ∧ (8#4).toNat ≤ 8 ∧
      (with128 0 0 0 0 [1, 2, 3, 4, 5, 6, 7, 8, 9, 10, 11, 12, 13, 14, 15] 15).ctx128.buf128.length < 16 := by decide

/-- The word-form premises of the command statements: a word with the opcode and a reserved bit, and a count out of range. -/
theorem test_witness_reserved_words :
    0x00000100 % 256 = 0x00 ∧ 0x00000100 ≠ 0x00 ∧ (0x00001003 % 256 = 0x03 ∧ 0x00001003 / 4096 ≠ 0) ∧
      (0x00000913 % 256 = 0x13 ∧ 0x00000913 / 4096 = 0 ∧ 8 < 0x00000913 / 256 % 16) := by decide

theorem test_witness_EmptyWriteOnlySetsLastCount : buffersOk State.reset := by decide

theorem test_witness_Sum32WritesTheDigest : (with32 0 0 [1, 2, 3] 3).ctx32.buf32.length < 4 := by decide

theorem test_witness_Sum128AndSum64WriteTheLanes : hwCtx128.ctx128.buf128.length < 16 := by decide

theorem test_witness_OverfullBufferIsThePermanentFault :
    4 ≤ (with32 0 0 [1, 2, 3, 4] 4).ctx32.buf32.length ∧
      16 ≤ (with128 0 0 0 0 (List.replicate 16 0) 16).ctx128.buf128.length := by decide

theorem test_witness_IllFormedCountsRecordTheError : 8 < (9#4).toNat ∧ 8 < (15#4).toNat := by decide

/-- A state that has recorded an error, with SIZE32 next. -/
def sizeAfterError : State := { sizeNext with status := ⟨true, some .countRange, 3⟩ }

theorem test_witness_RecordedErrorIsSticky :
    resetsNext sizeAfterError = false ∧ sizeAfterError.status.err = true ∧
      (∃ t, step sizeAfterError = .next t) ∧ resetsNext { sizeAfterError with schedule := [.driveRst true] } = true :=
  ⟨by decide, by decide, ⟨_, rfl⟩, by decide⟩

theorem test_witness_RecordedErrorDoesNotChangeExecution :
    decode ⟨0x00000006, 0, 0⟩ = .error .illegalOpcode ∧ decode ⟨0x00000005, 0, 0⟩ = .ok .size32 ∧
      ∃ t, runCommand ⟨0x00000005, 0, 0⟩ State.reset = .next t := ⟨by decide, by decide, _, rfl⟩

theorem test_witness_ErrorCodeHoldsTheFirstError :
    resetsNext illegalNext = false ∧ (∃ t, step illegalNext = .next t ∧ t.status.ecode = some .illegalOpcode) ∧
      decode ⟨0x00000006, 0, 0⟩ = .error .illegalOpcode ∧ ∃ t, runCommand ⟨0x00000006, 0, 0⟩ State.reset = .next t :=
  ⟨by decide, ⟨_, rfl, by decide⟩, by decide, _, rfl⟩

theorem test_witness_LastCountWrittenByWrites :
    (decode ⟨0x00000003, 0, 0⟩ = .ok (.write32 0 0) ∧ ∃ t, runCommand ⟨0x00000003, 0, 0⟩ State.reset = .next t) ∧
      (decode ⟨0x00000005, 0, 0⟩ = .ok .size32 ∧ ∃ t, runCommand ⟨0x00000005, 0, 0⟩ State.reset = .next t) ∧
      (decode ⟨0x00000006, 0, 0⟩ = .error .illegalOpcode ∧ ∃ t, runCommand ⟨0x00000006, 0, 0⟩ State.reset = .next t) ∧
      (resetsNext { sizeNext with schedule := [.read] } = false ∧
        ∃ t, step { sizeNext with schedule := [.read] } = .next t) :=
  ⟨⟨by decide, _, rfl⟩, ⟨by decide, _, rfl⟩, ⟨by decide, _, rfl⟩, by decide, _, rfl⟩

theorem test_witness_LegalCommandsRecordNoError :
    ((Instr.write32 8 0).wf = true ∧ buffersOk State.reset) ∧
      decode ⟨0x00000006, 1, 2⟩ = .error .illegalOpcode := by decide

theorem test_witness_EveryStepKeepsTheInvariant : Inv sizeNext ∧ ∃ t, step sizeNext = .next t ∧ t.res0 = 4 :=
  ⟨by decide, _, rfl, by decide⟩

/-- The invariant also holds of a state with `rst` high and an error recorded, and while bytes are buffered. -/
theorem test_witness_InvariantStatesNeverStop :
    Inv { sizeNext with rst := true } ∧ Inv sizeAfterError ∧ Inv (with32 5 6 [1, 2, 3] 7) := by decide

theorem test_witness_ContextsAreIndependent :
    usesCtx32 .size128 = false ∧ usesCtx128 .size128 = false ∧ ∃ t, exec .size128 State.reset = .next t :=
  ⟨by decide, by decide, _, rfl⟩

/-- What the next step accepts: the command at `pc`, but not while the host reads or drives `rst`, or while `rst` is high. -/
theorem test_acceptedInstr :
    acceptedInstr sizeNext = some .size32 ∧ acceptedInstr { sizeNext with schedule := [.read] } = none ∧
      acceptedInstr { sizeNext with schedule := [.driveRst false] } = none ∧
      acceptedInstr { sizeNext with rst := true } = none ∧ acceptedInstr illegalNext = none := by decide

/-- With a SIZE command at `pc`, a level on `rst` that is no reset accepts nothing. -/
theorem test_witness_ResultsStayPut :
    resetsNext { sizeNext with schedule := [.driveRst false] } = false ∧
      (∃ t, step { sizeNext with schedule := [.driveRst false] } = .next t) ∧
      ∀ i, acceptedInstr { sizeNext with schedule := [.driveRst false] } = some i → writesResults i = false := by
  have hn : acceptedInstr { sizeNext with schedule := [.driveRst false] } = none := by decide
  exact ⟨by decide, ⟨_, rfl⟩, fun i h => by rw [hn] at h; cases h⟩

theorem test_witness_SeedsWrittenOnlyByInit :
    resetsNext sizeNext = false ∧ (∃ t, step sizeNext = .next t) ∧ (∀ seed, acceptedInstr sizeNext ≠ some (.init32 seed)) ∧
      ∀ a b, acceptedInstr sizeNext ≠ some (.init128 a b) ∧ acceptedInstr sizeNext ≠ some (.init64 a) := by
  have hs : acceptedInstr sizeNext = some .size32 := by decide
  exact ⟨by decide, ⟨_, rfl⟩, fun seed => by rw [hs]; nofun, fun a b => by rw [hs]; exact ⟨nofun, nofun⟩⟩

/-- A full chunk and a short one, for the six streaming statements. -/
theorem test_witness_streaming_chunks :
    ∀ c ∈ ([[1, 2, 3, 4, 5, 6, 7, 8], [], [9]] : List (List Byte)), c.length ≤ 8 := by decide

theorem test_witness_Sum32IsRepeatable :
    (∀ i ∈ [Instr.size32, .init64 1], writesCtx32 i = false) ∧
      ∃ t u, exec .sum32 State.reset = .next t ∧ execSeq [.size32, .init64 1] t = .next u :=
  ⟨by decide, _, _, rfl, rfl⟩

theorem test_witness_Sum128AndSum64AreRepeatable :
    (∀ i ∈ [Instr.size64, .init32 1], writesCtx128 i = false) ∧
      (∃ t u, exec .sum128 State.reset = .next t ∧ execSeq [.size64, .init32 1] t = .next u) ∧
      ∃ t u, exec .sum64 State.reset = .next t ∧ execSeq [.size64, .init32 1] t = .next u :=
  ⟨by decide, ⟨_, _, rfl, rfl⟩, _, _, rfl, rfl⟩

theorem test_witness_RotationMovesEveryBit :
    (0 < 1 ∧ 1 < 32 ∧ 31 < 32) ∧ (0 < 31 ∧ 31 < 32 ∧ 0 < 32) ∧ (0 < 63 ∧ 63 < 64 ∧ 0 < 64) := by decide

theorem test_witness_BlockReadIsLittleEndian :
    (0 + 4 ≤ ([1, 2, 3, 4] : List Byte).length ∧ 3 < 4 ∧ ([1, 2, 3, 4] : List Byte)[0 + 3]? = some 4) ∧
      ([1, 2, 3] : List Byte).length < 0 + 4 := by decide

theorem test_witness_WriteBytesAreLowBytesOfOpa :
    0 < (1#4).toNat ∧ (0x12AB#64).toNat % 2 ^ (8 * (1#4).toNat) = (0x34AB#64).toNat % 2 ^ (8 * (1#4).toNat) := by decide

theorem test_witness_TailsAreFoldedByOneXor :
    (0 < ([1, 2, 3] : List Byte).length ∧ ([1, 2, 3] : List Byte).length ≤ 3) ∧
      (0 < (List.replicate 8 (1 : Byte)).length ∧ (List.replicate 8 (1 : Byte)).length ≤ 8) ∧
      ((List.replicate 8 (1 : Byte)).length = 8 ∧ 0 < (List.replicate 7 (1 : Byte)).length ∧
        (List.replicate 7 (1 : Byte)).length ≤ 7) := by decide

/-- Six words in the relation of the premises: they are definitions, which any lanes, tail and length meet. -/
theorem test_witness_Final128RunsItsStages :
    ∃ a b c d e f : Word64,
      a = (tail128 ⟨0, 0⟩ []).h1 ^^^ 1 ∧ b = (tail128 ⟨0, 0⟩ []).h2 ^^^ 1 ∧ c = a + b ∧ d = b + c ∧
        e = fmix64 c + fmix64 d ∧ f = fmix64 d + e ∧ e = 0x4610ABE56EFF5CB5 :=
  ⟨_, _, _, _, _, _, rfl, rfl, rfl, rfl, rfl, rfl, by decide⟩

end Sys2Proof.Tests
end

section
/-! SUPPORT. What one accepted command can do, field by field: decoding never gives an ill-formed command, a command's
run is its meaning or the record of its error, and each piece of state is written by few commands only. -/

namespace Sys2Proof.Machine

/-- Whatever decodes is well formed: the decoder has checked CNT's bound (R75). -/
theorem wf_of_decode (c : Command) (i : Instr) (h : decode c = .ok i) : i.wf = true := by
  obtain ⟨hsel, -, -, hle⟩ := (decode_ok_iff c i).1 h
  obtain ⟨-, hcnt, -⟩ := selectOpcode_fields c i hsel
  have hlegal (hi : i.hasCount = true) : countLegal i.countBits = true := by
    rw [hcnt hi]; exact (countLegal_iff _).2 (hle hi)
  cases i with
  | write32 cnt data => exact hlegal rfl
  | write128 cnt data => exact hlegal rfl
  | nop | init32 | reset32 | sum32 | size32 | init128 | init64 | reset128 | sum128 | sum64 | size128 | size64 => rfl

/-- Code 15 is no decode error: R77's checks give codes 1 to 3 only. -/
theorem decode_error_ne_invariant (c : Command) (e : CommandError) (h : decode c = .error e) : e ≠ .invariant := by
  rintro rfl
  unfold decode at h
  split at h
  · cases h
  · split_ifs at h <;> cases h

/-- Everything an accepted command can do when it goes on: run as its meaning, or record its error. -/
theorem runCommand_cases (c : Command) (s t : State) (h : runCommand c s = .next t) :
    (∃ i, decode c = .ok i ∧ i.wf = true ∧ exec i s = .next t) ∨
      ∃ e, decode c = .error e ∧ e ≠ .invariant ∧ t = raiseCommandError e s := by
  cases hd : decode c with
  | ok i => exact .inl ⟨i, rfl, wf_of_decode c i hd, by rwa [runCommand_ok c i s hd] at h⟩
  | error e =>
    rw [runCommand_error c e s hd] at h
    cases h
    exact .inr ⟨e, rfl, decode_error_ne_invariant c e hd, rfl⟩

/-- A WRITE's count is legal when its term is. -/
theorem countWritten_le (i : Instr) (cnt : BitVec 4) (hw : i.wf = true) (h : countWritten i = some cnt) :
    cnt.toNat ≤ 8 := by
  cases i with
  | write32 => cases h; exact (countLegal_iff cnt).1 hw
  | write128 => cases h; exact (countLegal_iff cnt).1 hw
  | nop | init32 | reset32 | sum32 | size32 | init128 | init64 | reset128 | sum128 | sum64 | size128 | size64 => cases h

/-- WRITE32 with a count above 8 only records command error 3. -/
theorem execWrite32_illegal (cnt : BitVec 4) (data : Word64) (s : State) (hc : 8 < cnt.toNat) :
    execWrite32 cnt data s = .next (raiseCommandError .countRange s) := by
  rw [execWrite32, countLegal_false cnt (Nat.not_le.2 hc)]; rfl

/-- WRITE128 with a count above 8 only records command error 3. -/
theorem execWrite128_illegal (cnt : BitVec 4) (data : Word64) (s : State) (hc : 8 < cnt.toNat) :
    execWrite128 cnt data s = .next (raiseCommandError .countRange s) := by
  rw [execWrite128, countLegal_false cnt (Nat.not_le.2 hc)]; rfl

/-- A well-formed command writes STATUS only to leave its count there (R33, R209). -/
theorem exec_status (i : Instr) (s t : State) (hw : i.wf = true) (h : exec i s = .next t) :
    t.status = (countWritten i).elim s.status s.status.recordCount := by
  cases i with
  | write32 cnt data =>
    obtain ⟨hc, -⟩ | ⟨-, -, c, -, rfl⟩ := execWrite32_cases cnt data s t h
    · exact absurd ((countLegal_iff cnt).1 hw) (by omega)
    · rfl
  | write128 cnt data =>
    obtain ⟨hc, -⟩ | ⟨-, -, c, -, rfl⟩ := execWrite128_cases cnt data s t h
    · exact absurd ((countLegal_iff cnt).1 hw) (by omega)
    · rfl
  | sum32 => obtain ⟨-, d, -, rfl⟩ := execSum32_cases s t h; rfl
  | sum128 => obtain ⟨-, d, -, rfl⟩ := execSum128_cases s t h; rfl
  | sum64 => obtain ⟨-, d, -, rfl⟩ := execSum64_cases s t h; rfl
  | nop | init32 | reset32 | size32 | init128 | init64 | reset128 | size128 | size64 => cases h; rfl

/-- No well-formed command writes ERR or ECODE. -/
theorem exec_keeps_ecode (i : Instr) (s t : State) (hw : i.wf = true) (h : exec i s = .next t) :
    t.status.ecode = s.status.ecode := by
  rw [exec_status i s t hw h]
  cases countWritten i <;> rfl

/-- LASTCNT is the command's count where it has one, and what it was otherwise. -/
theorem exec_lastCnt (i : Instr) (s t : State) (hw : i.wf = true) (h : exec i s = .next t) :
    t.status.lastCnt = (countWritten i).getD s.status.lastCnt := by
  rw [exec_status i s t hw h]
  cases countWritten i <;> rfl

/-- Only INIT32, RESET32 and WRITE32 write CTX32. -/
theorem exec_keeps_ctx32 (i : Instr) (s t : State) (hw : writesCtx32 i = false) (h : exec i s = .next t) :
    t.ctx32 = s.ctx32 := by
  cases i with
  | init32 | reset32 | write32 => cases hw
  | write128 cnt data => obtain ⟨-, rfl⟩ | ⟨-, -, c, -, rfl⟩ := execWrite128_cases cnt data s t h <;> rfl
  | sum32 => obtain ⟨-, d, -, rfl⟩ := execSum32_cases s t h; rfl
  | sum128 => obtain ⟨-, d, -, rfl⟩ := execSum128_cases s t h; rfl
  | sum64 => obtain ⟨-, d, -, rfl⟩ := execSum64_cases s t h; rfl
  | nop | size32 | init128 | init64 | reset128 | size128 | size64 => cases h; rfl

/-- Only INIT128, INIT64, RESET128 and WRITE128 write CTX128. -/
theorem exec_keeps_ctx128 (i : Instr) (s t : State) (hw : writesCtx128 i = false) (h : exec i s = .next t) :
    t.ctx128 = s.ctx128 := by
  cases i with
  | init128 | init64 | reset128 | write128 => cases hw
  | write32 cnt data => obtain ⟨-, rfl⟩ | ⟨-, -, c, -, rfl⟩ := execWrite32_cases cnt data s t h <;> rfl
  | sum32 => obtain ⟨-, d, -, rfl⟩ := execSum32_cases s t h; rfl
  | sum128 => obtain ⟨-, d, -, rfl⟩ := execSum128_cases s t h; rfl
  | sum64 => obtain ⟨-, d, -, rfl⟩ := execSum64_cases s t h; rfl
  | nop | init32 | reset32 | size32 | size128 | size64 => cases h; rfl

/-- Everything a step that resets nothing can do: the engine's state stays where no command is accepted; an accepted command
runs as its meaning, or records its error, after the host's reads. -/
theorem step_next_cases_of_no_reset (s t : State) (h : step s = .next t) (hr : resetsNext s = false) :
    (acceptedInstr s = none ∧ t.ctx32 = s.ctx32 ∧ t.ctx128 = s.ctx128 ∧ t.res0 = s.res0 ∧ t.res1 = s.res1 ∧
        t.status = s.status) ∨
      (∃ n i, acceptedInstr s = some i ∧ i.wf = true ∧ exec i (State.readBusy n s.popMove.advance) = .next t) ∨
      ∃ n c e, acceptedNext s = some c ∧ decode c = .error e ∧ acceptedInstr s = none ∧
        t = raiseCommandError e (State.readBusy n s.popMove.advance) := by
  obtain ⟨ha, hs⟩ | ⟨n, c, ha, hs⟩ := step_cases_of_no_reset s hr
  · refine .inl ⟨by simp [acceptedInstr, ha], ?_⟩
    obtain hs | hs := hs <;> (rw [hs] at h; cases h)
    · exact ⟨rfl, rfl, rfl, rfl, rfl⟩
    · obtain ⟨h32, h128, h0, h1, hst, -⟩ := hostRead_keeps s.popMove
      exact ⟨h32, h128, h0, h1, hst⟩
  · obtain ⟨i, hd, hw, he⟩ | ⟨e, hd, -, rfl⟩ := runCommand_cases c _ t (hs.symm.trans h)
    · exact .inr (.inl ⟨n, i, acceptedInstr_of_decode s c i ha hd, hw, he⟩)
    · exact .inr (.inr ⟨n, c, e, ha, hd, by simp [acceptedInstr, ha, hd, Except.toOption], rfl⟩)

end Sys2Proof.Machine
end

section
/-! PROOFS. The invariant: each context, STATUS and `pc` stay legal through every command and every move of the host. -/

namespace Sys2Proof.Machine

/-- The part of the invariant that speaks of CTX32: its buffer is under the block size and in step with its length. -/
abbrev Ctx32.ok (c : Ctx32) : Prop := c.buf32.length < 4 ∧ c.tlen32.toNat % 4 = c.buf32.length % 4

/-- The part of the invariant that speaks of CTX128. -/
abbrev Ctx128.ok (c : Ctx128) : Prop := c.buf128.length < 16 ∧ c.tlen128.toNat % 16 = c.buf128.length % 16

/-- The invariant, context by context. -/
theorem inv_iff (s : State) :
    Inv s ↔ s.ctx32.ok ∧ s.ctx128.ok ∧ statusOk s.status ∧ s.pc ≤ s.program.length ∧ (s.rst = true → engineReset s) :=
  ⟨fun ⟨⟨b32, b128⟩, ⟨c32, c128⟩, h⟩ => ⟨⟨b32, c32⟩, ⟨b128, c128⟩, h⟩,
    fun ⟨⟨b32, c32⟩, ⟨b128, c128⟩, h⟩ => ⟨⟨b32, b128⟩, ⟨c32, c128⟩, h⟩⟩

/-- An empty buffer and a zero length are in step: CTX32 seeded or restarted. -/
theorem Ctx32.ok_of_empty (c : Ctx32) (hb : c.buf32 = []) (hl : c.tlen32 = 0) : c.ok := by simp [Ctx32.ok, hb, hl]

/-- The same for CTX128. -/
theorem Ctx128.ok_of_empty (c : Ctx128) (hb : c.buf128 = []) (hl : c.tlen128 = 0) : c.ok := by simp [Ctx128.ok, hb, hl]

/-- Every command keeps CTX32 legal. -/
theorem exec_keeps_ctx32_ok (i : Instr) (s t : State) (hk : s.ctx32.ok) (h : exec i s = .next t) : t.ctx32.ok := by
  cases i with
  | init32 seed => cases h; exact Ctx32.ok_of_empty _ rfl rfl
  | reset32 => cases h; exact Ctx32.ok_of_empty _ rfl rfl
  | write32 cnt data =>
    obtain ⟨-, rfl⟩ | ⟨-, hb, c, ht, rfl⟩ := execWrite32_cases cnt data s t h
    · exact hk
    · obtain ⟨hlen, hstep, -⟩ := take32_keeps s.ctx32 c cnt _ hb hk.2 (writeBytes_length cnt data) ht
      exact ⟨hlen, hstep⟩
  | nop | sum32 | size32 | init128 | init64 | reset128 | write128 | sum128 | sum64 | size128 | size64 =>
    rw [exec_keeps_ctx32 _ s t rfl h]; exact hk

/-- Every command keeps CTX128 legal. -/
theorem exec_keeps_ctx128_ok (i : Instr) (s t : State) (hk : s.ctx128.ok) (h : exec i s = .next t) : t.ctx128.ok := by
  cases i with
  | init128 a b => cases h; exact Ctx128.ok_of_empty _ rfl rfl
  | init64 seed => cases h; exact Ctx128.ok_of_empty _ rfl rfl
  | reset128 => cases h; exact Ctx128.ok_of_empty _ rfl rfl
  | write128 cnt data =>
    obtain ⟨-, rfl⟩ | ⟨-, hb, c, ht, rfl⟩ := execWrite128_cases cnt data s t h
    · exact hk
    · obtain ⟨hlen, hstep, -⟩ := take128_keeps s.ctx128 c cnt _ hb hk.2 (writeBytes_length cnt data) ht
      exact ⟨hlen, hstep⟩
  | nop | init32 | reset32 | write32 | sum32 | size32 | sum128 | sum64 | size128 | size64 =>
    rw [exec_keeps_ctx128 _ s t rfl h]; exact hk

/-- Recording an error other than code 15 keeps STATUS legal. -/
theorem statusOk_recordError (st : Status) (e : CommandError) (hk : statusOk st) (he : e ≠ .invariant) :
    statusOk (st.recordError e) := by
  obtain ⟨herr, hcode, hcnt⟩ := hk
  cases hf : st.err with
  | true => rw [statusOk, recordError_ecode_later st e hf, ← herr]; exact ⟨hf.symm, hcode, hcnt⟩
  | false => rw [statusOk, recordError_ecode_first st e hf]; exact ⟨rfl, by simpa using he, hcnt⟩

/-- Every well-formed command keeps STATUS legal. -/
theorem exec_keeps_statusOk (i : Instr) (s t : State) (hw : i.wf = true) (hk : statusOk s.status)
    (h : exec i s = .next t) : statusOk t.status := by
  rw [exec_status i s t hw h]
  cases hc : countWritten i with
  | none => exact hk
  | some cnt =>
    obtain ⟨herr, hcode, -⟩ := hk
    exact ⟨herr, hcode, countWritten_le i cnt hw hc⟩

/-- An accepted command, legal or not, keeps the invariant; one is accepted only while `rst` is low. -/
theorem runCommand_keeps_inv (c : Command) (s t : State) (hi : Inv s) (hr : s.rst = false)
    (h : runCommand c s = .next t) : Inv t := by
  obtain ⟨h32, h128, hst, hpc, -⟩ := (inv_iff s).1 hi
  obtain ⟨i, -, hw, he⟩ | ⟨e, -, hne, rfl⟩ := runCommand_cases c s t h
  · obtain ⟨hrst, hprog, hpc', -⟩ := exec_host_side i s t he
    refine (inv_iff t).2 ⟨exec_keeps_ctx32_ok i s t h32 he, exec_keeps_ctx128_ok i s t h128 he,
      exec_keeps_statusOk i s t hw hst he, by rw [hpc', hprog]; exact hpc, fun ht => ?_⟩
    rw [hrst, hr] at ht; cases ht
  · refine (inv_iff _).2 ⟨h32, h128, statusOk_recordError _ e hst hne, hpc, fun ht => ?_⟩
    rw [raiseCommandError_rst, hr] at ht; cases ht

/-- Past an accepted command `pc` is still within the program. -/
theorem inv_advance (s : State) (c : Command) (hi : Inv s) (hp : s.program[s.pc]? = some c) : Inv s.advance := by
  obtain ⟨hb, hc, hst, -, hr⟩ := hi
  exact ⟨hb, hc, hst, (List.getElem?_eq_some_iff.1 hp).1, hr⟩

/-- Reads while the engine is busy keep the invariant. -/
theorem inv_readBusy (n : Nat) (s : State) (hi : Inv s) : Inv (State.readBusy n s) := by
  rw [readBusy_eq]; exact hi

/-- So does a read between commands. -/
theorem inv_hostRead (s : State) (hi : Inv s) : Inv s.hostRead := by
  unfold State.hostRead
  split <;> exact hi

/-- So does any level on `rst`: the reset state meets the invariant whatever the pin shows. -/
theorem inv_driveRst (s : State) (level : Bool) (hi : Inv s) : Inv (s.driveRst level) := by
  by_cases ha : s.rst = true ∨ level = true
  · rw [driveRst_active s level ha]
    obtain ⟨-, -, -, hpc, -⟩ := hi
    exact (inv_iff _).2 ⟨Ctx32.ok_of_empty _ rfl rfl, Ctx128.ok_of_empty _ rfl rfl, ⟨rfl, nofun, Nat.zero_le _⟩, hpc,
      fun _ => ⟨rfl, rfl, rfl, rfl, rfl⟩⟩
  · obtain ⟨hr, hl⟩ := not_or.1 ha
    rw [Bool.eq_false_iff.2 hl, driveRst_idle s (Bool.eq_false_iff.2 hr)]
    exact hi

/-- Settles O39: the invariant through each of the five things a step can do (`step_cases`). -/
theorem everyStepKeepsTheInvariant : Obligations.EveryStepKeepsTheInvariant := by
  intro s t hi h
  have hpop : Inv s.popMove := hi
  obtain hs | ⟨n, c, hp, hr, hs⟩ | ⟨n, c, hp, hr, hs⟩ | hs | ⟨level, hs⟩ := step_cases s <;> rw [hs] at h
  · cases h; exact hpop
  · exact runCommand_keeps_inv c _ t (inv_readBusy n _ (inv_advance _ c hpop hp)) (by simpa using hr) h
  · cases h; exact inv_driveRst _ true (inv_readBusy n _ (inv_advance _ c hpop hp))
  · cases h; exact inv_hostRead _ hpop
  · cases h; exact inv_driveRst _ level hpop

end Sys2Proof.Machine
end

section
/-! PROOFS. STATUS: who writes ECODE and LASTCNT, and where the word's fields stand (R30 to R34). -/

namespace Sys2Proof.Machine

/-- After a command error ECODE is the first error's code. -/
theorem recordError_ecode (st : Status) (e : CommandError) :
    (st.recordError e).ecode = if st.err = true then st.ecode else some e := rfl

/-- The four bits of ECODE are 0 or one of R201's codes. -/
theorem ecodeBits_mem (st : Status) : st.ecodeBits.toNat ∈ [0, 1, 2, 3, 15] := by
  obtain ⟨err, ecode, lastCnt⟩ := st
  obtain _ | e := ecode
  · simp [Status.ecodeBits]
  · cases e <;> simp [Status.ecodeBits, errorCode]

/-- Settles O35: a step that resets nothing keeps ECODE unless it accepts a command error, which records only the first. -/
theorem errorCodeHoldsTheFirstError : Obligations.ErrorCodeHoldsTheFirstError := by
  refine ⟨fun s t h hr => ?_, fun c e s t hd h => ?_, ecodeBits_mem⟩
  · obtain ⟨-, -, -, -, -, hst⟩ | ⟨n, i, -, hw, he⟩ | ⟨n, c, e, ha, hd, -, rfl⟩ := step_next_cases_of_no_reset s t h hr
    · exact .inl (by rw [hst])
    · exact .inl (by simpa using exec_keeps_ecode i _ t hw he)
    · cases hf : s.status.err with
      | true => exact .inl (by simp [recordError_ecode_later s.status e hf])
      | false => exact .inr ⟨rfl, rfl, c, e, ha, hd, by simp [recordError_ecode_first s.status e hf]⟩
  · rw [runCommand_error c e s hd] at h
    cases h
    exact recordError_ecode s.status e

/-- Settles O36: a decoded command leaves its count or keeps LASTCNT (`exec_lastCnt`), and an error record keeps it. -/
theorem lastCountWrittenByWrites : Obligations.LastCountWrittenByWrites := by
  refine ⟨fun c i s t hd h => ?_, fun c e s t hd h => ?_, fun s t h hr => ?_⟩
  · have hw := wf_of_decode c i hd
    have hcnt := exec_lastCnt i s t hw (by rwa [runCommand_ok c i s hd] at h)
    cases i with
    | write32 cnt data => exact ⟨hcnt, countWritten_le _ cnt hw rfl⟩
    | write128 cnt data => exact ⟨hcnt, countWritten_le _ cnt hw rfl⟩
    | nop | init32 | reset32 | sum32 | size32 | init128 | init64 | reset128 | sum128 | sum64 | size128 | size64 =>
      exact hcnt
  · rw [runCommand_error c e s hd] at h
    cases h; rfl
  · obtain ⟨ha, -, -, -, -, hst⟩ | ⟨n, i, ha, hw, he⟩ | ⟨n, c, e, -, -, ha, rfl⟩ := step_next_cases_of_no_reset s t h hr
    · simp [ha, hst]
    · simpa [ha] using exec_lastCnt i _ t hw he
    · simp [ha]

/-- Appended bit vectors as a number: the upper one above all bits of the lower. -/
theorem toNat_append_eq_add {m n : Nat} (x : BitVec m) (y : BitVec n) :
    (x ++ y).toNat = x.toNat * 2 ^ n + y.toNat := by
  rw [BitVec.toNat_append, ← Nat.shiftLeft_add_eq_or_of_lt y.isLt, Nat.shiftLeft_eq]

/-- The STATUS word as a number: its three fields, each at its place (R30). -/
theorem status_word_toNat (st : Status) :
    st.word.toNat = st.err.toNat + 16 * st.ecodeBits.toNat + 256 * st.lastCnt.toNat := by
  simp only [Status.word, toNat_append_eq_add, BitVec.toNat_ofBool, BitVec.toNat_ofNat]
  omega

/-- Settles O31: between and above its three fields the word has no bits (`status_word_toNat`). -/
theorem reservedStatusBitsReadZero : Obligations.ReservedStatusBitsReadZero := by
  intro st
  have herr := st.err.toNat_lt
  have hcode := st.ecodeBits.isLt
  have hcnt := st.lastCnt.isLt
  rw [status_word_toNat]
  omega

/-- Settles O32: each field is read back from `status_word_toNat`, ECODE code by code. -/
theorem statusWordHoldsItsFields : Obligations.StatusWordHoldsItsFields := by
  intro st
  have herr := st.err.toNat_lt
  have hcode := st.ecodeBits.isLt
  have hcnt := st.lastCnt.isLt
  rw [status_word_toNat]
  refine ⟨by omega, by omega, ?_⟩
  have hbits : (st.err.toNat + 16 * st.ecodeBits.toNat + 256 * st.lastCnt.toNat) / 16 % 16 = st.ecodeBits.toNat := by omega
  rw [hbits, Status.ecodeBits]
  cases st.ecode with
  | none => rfl
  | some e => cases e <;> rfl

end Sys2Proof.Machine
end

section
/-! PROOFS. The two contexts and their seeds: no command to one touches the other (R42), and only INIT writes seeds (R21, R25). -/

namespace Sys2Proof.Machine

/-- A command that is not to CTX32 does the same whatever CTX32 holds. -/
theorem exec_setCtx32 (i : Instr) (s t : State) (c : Ctx32) (hu : usesCtx32 i = false) (h : exec i s = .next t) :
    exec i (s.setCtx32 c) = .next (t.setCtx32 c) := by
  cases i with
  | init32 | reset32 | write32 | sum32 => cases hu
  | write128 cnt data =>
    obtain ⟨hc, rfl⟩ | ⟨hc, hb, v, ht, rfl⟩ := execWrite128_cases cnt data s t h
    · exact execWrite128_illegal cnt data _ hc
    · obtain ⟨w, hw, he⟩ := execWrite128_next cnt data (s.setCtx32 c) hc hb
      cases ht.symm.trans hw
      exact he
  | sum128 => obtain ⟨hb, d, hd, rfl⟩ := execSum128_cases s t h; exact execSum128_next _ d hd hb
  | sum64 => obtain ⟨hb, d, hd, rfl⟩ := execSum64_cases s t h; exact execSum64_next _ d hd hb
  | nop | size32 | init128 | init64 | reset128 | size128 | size64 => cases h; rfl

/-- A command that is not to CTX128 does the same whatever CTX128 holds. -/
theorem exec_setCtx128 (i : Instr) (s t : State) (c : Ctx128) (hu : usesCtx128 i = false) (h : exec i s = .next t) :
    exec i (s.setCtx128 c) = .next (t.setCtx128 c) := by
  cases i with
  | init128 | init64 | reset128 | write128 | sum128 | sum64 => cases hu
  | write32 cnt data =>
    obtain ⟨hc, rfl⟩ | ⟨hc, hb, v, ht, rfl⟩ := execWrite32_cases cnt data s t h
    · exact execWrite32_illegal cnt data _ hc
    · obtain ⟨w, hw, he⟩ := execWrite32_next cnt data (s.setCtx128 c) hc hb
      cases ht.symm.trans hw
      exact he
  | sum32 => obtain ⟨hb, d, hd, rfl⟩ := execSum32_cases s t h; exact execSum32_next _ d hd hb
  | nop | init32 | reset32 | size32 | size128 | size64 => cases h; rfl

/-- A command that writes CTX32 is one to CTX32. -/
theorem writesCtx32_of_not_usesCtx32 (i : Instr) (h : usesCtx32 i = false) : writesCtx32 i = false := by
  cases i with
  | init32 | reset32 | write32 | sum32 => cases h
  | nop | size32 | init128 | init64 | reset128 | write128 | sum128 | sum64 | size128 | size64 => rfl

/-- A command that writes CTX128 is one to CTX128. -/
theorem writesCtx128_of_not_usesCtx128 (i : Instr) (h : usesCtx128 i = false) : writesCtx128 i = false := by
  cases i with
  | init128 | init64 | reset128 | write128 | sum128 | sum64 => cases h
  | nop | init32 | reset32 | write32 | sum32 | size32 | size128 | size64 => rfl

/-- Settles O42: not written, and not read, for each context. -/
theorem contextsAreIndependent : Obligations.ContextsAreIndependent := by
  intro i s t h
  exact ⟨fun hu => ⟨exec_keeps_ctx32 i s t (writesCtx32_of_not_usesCtx32 i hu) h, fun c => exec_setCtx32 i s t c hu h⟩,
    fun hu => ⟨exec_keeps_ctx128 i s t (writesCtx128_of_not_usesCtx128 i hu) h, fun c => exec_setCtx128 i s t c hu h⟩⟩

/-- Taking bytes into CTX32 leaves its seed alone. -/
theorem take32_seed (c c' : Ctx32) (cnt : BitVec 4) (bs : List Byte) (h : c.take cnt bs = some c') :
    c'.seed32 = c.seed32 := by
  unfold Ctx32.take at h
  split at h <;> cases h
  rfl

/-- Taking bytes into CTX128 leaves its seeds alone. -/
theorem take128_seeds (c c' : Ctx128) (cnt : BitVec 4) (bs : List Byte) (h : c.take cnt bs = some c') :
    c'.seed1 = c.seed1 ∧ c'.seed2 = c.seed2 := by
  unfold Ctx128.take at h
  split at h <;> cases h
  exact ⟨rfl, rfl⟩

/-- Of all commands only INIT32 writes SEED32. -/
theorem exec_keeps_seed32 (i : Instr) (s t : State) (hi : ∀ seed, i ≠ .init32 seed) (h : exec i s = .next t) :
    t.ctx32.seed32 = s.ctx32.seed32 := by
  cases i with
  | init32 seed => exact absurd rfl (hi seed)
  | reset32 => cases h; rfl
  | write32 cnt data =>
    obtain ⟨-, rfl⟩ | ⟨-, -, c, ht, rfl⟩ := execWrite32_cases cnt data s t h
    · rfl
    · exact take32_seed s.ctx32 c cnt _ ht
  | nop | sum32 | size32 | init128 | init64 | reset128 | write128 | sum128 | sum64 | size128 | size64 =>
    rw [exec_keeps_ctx32 _ s t rfl h]

/-- Of all commands only INIT128 and INIT64 write SEED1 and SEED2. -/
theorem exec_keeps_seeds128 (i : Instr) (s t : State) (hi : ∀ a b, i ≠ .init128 a b ∧ i ≠ .init64 a)
    (h : exec i s = .next t) : t.ctx128.seed1 = s.ctx128.seed1 ∧ t.ctx128.seed2 = s.ctx128.seed2 := by
  cases i with
  | init128 a b => exact absurd rfl (hi a b).1
  | init64 seed => exact absurd rfl (hi seed 0).2
  | reset128 => cases h; exact ⟨rfl, rfl⟩
  | write128 cnt data =>
    obtain ⟨-, rfl⟩ | ⟨-, -, c, ht, rfl⟩ := execWrite128_cases cnt data s t h
    · exact ⟨rfl, rfl⟩
    · exact take128_seeds s.ctx128 c cnt _ ht
  | nop | init32 | reset32 | write32 | sum32 | size32 | sum128 | sum64 | size128 | size64 =>
    rw [exec_keeps_ctx128 _ s t rfl h]; exact ⟨rfl, rfl⟩

/-- Settles O44: a step that resets nothing accepts no command, runs one that is no INIT, or records an error. -/
theorem seedsWrittenOnlyByInit : Obligations.SeedsWrittenOnlyByInit := by
  intro s t h hr
  obtain ⟨-, h32, h128, -⟩ | ⟨n, i, ha, -, he⟩ | ⟨n, c, e, -, -, -, rfl⟩ := step_next_cases_of_no_reset s t h hr
  · rw [h32, h128]; exact ⟨fun _ => rfl, fun _ => ⟨rfl, rfl⟩⟩
  · rw [ha]
    refine ⟨fun hn => ?_, fun hn => ?_⟩
    · simpa using exec_keeps_seed32 i _ t (fun seed hi => hn seed (congrArg some hi)) he
    · simpa using exec_keeps_seeds128 i _ t
        (fun a b => ⟨fun hi => (hn a b).1 (congrArg some hi), fun hi => (hn a b).2 (congrArg some hi)⟩) he
  · simp

end Sys2Proof.Machine
end

section
/-! PROOFS. Issuing a command. -/

namespace Sys2Proof.Machine

/-- With `rst` low the command at `pc` is accepted: `pc` moves on and the command runs after the host's reads. -/
theorem issueCommand_accepts (n : Nat) (s : State) (c : Command) (hr : s.rst = false) (hp : s.program[s.pc]? = some c) :
    issueCommand n s = runCommand c (State.readBusy n s.advance) := by
  rw [issueCommand_eq, State.cmdReady, State.presented, hr, hp]; rfl

/-- With no move scheduled the step issues the command at `pc`. -/
theorem step_of_no_move (s : State) (h : s.schedule = []) : step s = issueCommand 0 s := by
  rw [step, nextMove, h]

/-- A scheduled issue does the same, taken off the schedule. -/
theorem step_of_issue (s : State) (rest : List HostMove) (h : s.schedule = .issue :: rest) :
    step s = issueCommand 0 { s with schedule := rest } := by
  rw [step, nextMove, h]; rfl

/-- Settles O9: both forms of issuing run the command at `pc`, which is its meaning when it decodes. -/
theorem stepRunsTheDecodedCommand : Obligations.StepRunsTheDecodedCommand := by
  intro s c i hr hp hd
  have hrun (u : State) (hur : u.rst = false) (hup : u.program[u.pc]? = some c) :
      issueCommand 0 u = exec i { u with pc := u.pc + 1 } :=
    (issueCommand_accepts 0 u c hur hup).trans (runCommand_ok c i _ hd)
  exact ⟨fun hs => (step_of_no_move s hs).trans (hrun s hr hp),
    fun rest hs => (step_of_issue s rest hs).trans (hrun { s with schedule := rest } hr hp)⟩

end Sys2Proof.Machine
end

section
/-! SUPPORT. The encoder's round trip, and the host's side of a run: no command reads `pc`, the host's reads or the draw
counter, so a command runs the same wherever it stands in the program and however often the host reads meanwhile. -/

namespace Sys2Proof.Machine

/-- The opcode and the operands of an encoded command name the command. -/
theorem selectOpcode_encode (i : Instr) : selectOpcode (encode i) = some i := by
  have hop : opField (encode i).cmd = i.opcode := opField_commandWord i
  have hcnt : cntField (encode i).cmd = i.countBits := cntField_commandWord i
  rw [selectOpcode, hop, hcnt]
  cases i with
  | init32 seed =>
    have hseed : (seed.setWidth 64).setWidth 32 = seed := by
      rw [BitVec.setWidth_setWidth_of_le seed (by decide), BitVec.setWidth_eq]
    exact congrArg (fun v => some (Instr.init32 v)) hseed
  | nop | reset32 | write32 | sum32 | size32 | init128 | init64 | reset128 | write128 | sum128 | sum64 | size128 | size64 =>
    rfl

/-- Encoding a well-formed command and decoding it gives it back: its count, the one checked field, is legal (R75). -/
theorem decode_encode (i : Instr) (hw : i.wf = true) : decode (encode i) = .ok i := by
  rw [decode_ok_iff, show cntField (encode i).cmd = i.countBits from cntField_commandWord i]
  refine ⟨selectOpcode_encode i, rsvField_commandWord i, fun hc => ?_, fun hc => ?_⟩
  · cases i with
    | write32 | write128 => cases hc
    | nop | init32 | reset32 | sum32 | size32 | init128 | init64 | reset128 | sum128 | sum64 | size128 | size64 => rfl
  · cases i with
    | write32 cnt data => exact (countLegal_iff cnt).1 hw
    | write128 cnt data => exact (countLegal_iff cnt).1 hw
    | nop | init32 | reset32 | sum32 | size32 | init128 | init64 | reset128 | sum128 | sum64 | size128 | size64 => cases hc

/-- A command does the same with another `pc`, other reads and another draw counter, and leaves those as they are. -/
theorem exec_with_pc_reads_draws (i : Instr) (s t : State) (k : Nat) (v : List PortView) (d : Nat)
    (h : exec i s = .next t) :
    exec i { s with pc := k, reads := v, draws := d } = .next { t with pc := k, reads := v, draws := d } := by
  obtain ⟨hrst, hprog, -, hsched, -, -⟩ := exec_host_side i s t h
  calc exec i { s with pc := k, reads := v, draws := d }
    _ = .next { t with rst := s.rst, program := s.program, pc := k, schedule := s.schedule, reads := v, draws := d } :=
      exec_other_host i s t s.rst s.program k s.schedule v d h
    _ = .next { t with pc := k, reads := v, draws := d } := by rw [hrst, hprog, hsched]

/-- A command does the same wherever it stands in the host program. -/
theorem exec_with_pc (i : Instr) (s t : State) (k : Nat) (h : exec i s = .next t) :
    exec i { s with pc := k } = .next { t with pc := k } := by
  obtain ⟨-, -, -, -, hreads, hdraws⟩ := exec_host_side i s t h
  calc exec i { s with pc := k }
    _ = .next { t with pc := k, reads := s.reads, draws := s.draws } := exec_with_pc_reads_draws i s t k _ _ h
    _ = .next { t with pc := k } := by rw [hreads, hdraws]

/-- So does a sequence of commands. -/
theorem execSeq_with_pc (is : List Instr) (k : Nat) :
    ∀ s t : State, execSeq is s = .next t → execSeq is { s with pc := k } = .next { t with pc := k } := by
  induction is with
  | nil => intro s t h; cases h; rfl
  | cons i is ih =>
    intro s t h
    obtain ⟨u, hu, ht⟩ := (andThen_eq_next _ _ t).1 h
    exact (andThen_eq_next _ _ _).2 ⟨_, exec_with_pc i s u k hu, ih u t ht⟩

/-- An accepted command draws no free value: the counter is moved by the host's reads alone. -/
theorem runCommand_draws (c : Command) (s t : State) (h : runCommand c s = .next t) : t.draws = s.draws := by
  obtain ⟨i, -, -, he⟩ | ⟨e, -, -, rfl⟩ := runCommand_cases c s t h
  · obtain ⟨-, -, -, -, -, hdraws⟩ := exec_host_side i s t he
    exact hdraws
  · rfl

/-- Reads before an accepted command runs are reads after it: the command neither sees nor disturbs them. -/
theorem runCommand_readBusy (n : Nat) (c : Command) (s t : State) (h : runCommand c s = .next t) :
    runCommand c (State.readBusy n s) = .next (State.readBusy n t) := by
  obtain ⟨i, hd, -, he⟩ | ⟨e, hd, -, rfl⟩ := runCommand_cases c s t h
  · obtain ⟨-, -, hpc, -, hreads, hdraws⟩ := exec_host_side i s t he
    rw [runCommand_ok c i _ hd, readBusy_eq, readBusy_eq, hreads, hdraws]
    exact hpc ▸ exec_with_pc_reads_draws i s t s.pc _ _ he
  · rw [runCommand_error c e _ hd, readBusy_eq, readBusy_eq]; rfl

/-- With no command left or `rst` high, issuing changes nothing, whatever reads were planned. -/
theorem issueCommand_waits (n : Nat) (s : State) (h : s.rst = true ∨ s.program.length ≤ s.pc) :
    issueCommand n s = .next s := by
  obtain hs | ⟨c, hp, hr, -⟩ := issueCommand_cases n s
  · exact hs
  · obtain ⟨hlt, -⟩ := List.getElem?_eq_some_iff.1 hp
    obtain h | h := h
    · rw [hr] at h; cases h
    · omega

/-- A run goes on with the steps left after one that goes on. -/
theorem run_succ_of_step (M : Host.Core) (k : Nat) (s u : M.State) (h : M.step s = .next u) :
    M.run (k + 1) s = M.run k u := by
  rw [Host.Core.run, h]

end Sys2Proof.Machine
end

section
/-! PROOFS. The host's interactions (20_memory.md R52, R57 to R59): its program, its reads, and the bytes it writes. -/

namespace Sys2Proof.Machine

/-- The step that runs the first of a list of encoded commands: it is the command's meaning, with `pc` moved on. -/
theorem step_of_encoded (i : Instr) (cs : List Command) (s u : State) (hr : s.rst = false) (hs : s.schedule = [])
    (hw : i.wf = true) (hp : s.program.drop s.pc = encode i :: cs) (h : exec i s = .next u) :
    step s = .next { u with pc := s.pc + 1 } := by
  have hc : s.program[s.pc]? = some (encode i) := by rw [← List.head?_drop, hp]; rfl
  obtain ⟨hidle, -⟩ := stepRunsTheDecodedCommand s (encode i) i hr hc (decode_encode i hw)
  exact (hidle hs).trans (exec_with_pc i s u (s.pc + 1) h)

/-- Settles O17, by induction on the commands: one step runs the first (`step_of_encoded`), and the rest of the sequence does
not depend on where `pc` stands (`execSeq_with_pc`). -/
theorem hostProgramRunsInOrder : Obligations.HostProgramRunsInOrder := by
  intro is
  induction is with
  | nil =>
    intro s t hr _ _ hp hle h
    cases h
    have hend : s.program.length ≤ s.pc := List.drop_eq_nil_iff.1 hp
    exact ⟨rfl, Nat.le_antisymm hle hend, by simp [State.cmdReady, hr]⟩
  | cons i is ih =>
    intro s t hr hs hw hp hle h
    obtain ⟨hwi, hwis⟩ := List.forall_mem_cons.1 hw
    obtain ⟨u, hu, ht⟩ := (andThen_eq_next _ _ t).1 h
    obtain ⟨hrst, hprog, -, hsched, -, -⟩ := exec_host_side i s u hu
    have hstep := step_of_encoded i (is.map encode) s u hr hs hwi hp hu
    have hrest : u.program.drop (s.pc + 1) = is.map encode := by
      rw [hprog, ← List.tail_drop, hp]; rfl
    have hlt : s.pc + 1 ≤ u.program.length := by
      have hlen := congrArg List.length hp
      rw [List.length_drop, List.length_map, List.length_cons] at hlen
      rw [hprog]; omega
    obtain ⟨hrun, hended⟩ := ih { u with pc := s.pc + 1 } { t with pc := s.pc + 1 } (hrst.trans hr) (hsched.trans hs)
      hwis hrest hlt (execSeq_with_pc is (s.pc + 1) u t ht)
    have hpc : s.pc + 1 + is.length = s.pc + (i :: is).length := by rw [List.length_cons]; omega
    rw [← hpc]
    exact ⟨(run_succ_of_step Sys2Proof.core is.length s _ hstep).trans hrun, hended⟩

/-- A scheduled issue with reads, taken off the schedule. -/
theorem step_of_issueReading (s : State) (n : Nat) (rest : List HostMove) (h : s.schedule = .issueReading n :: rest) :
    step s = issueCommand n { s with schedule := rest } := by
  rw [step, nextMove, h]; rfl

/-- Settles O16: the reads pass through an accepted command (`runCommand_readBusy`); without one there are none. -/
theorem busyReadsDisturbNothing : Obligations.BusyReadsDisturbNothing := by
  intro s t n rest h
  rw [step_of_issue _ rest rfl] at h
  rw [step_of_issueReading _ n rest rfl]
  refine ⟨fun hr hpc => ?_, fun hw => ?_⟩
  · have hc : s.program[s.pc]? = some s.program[s.pc] := List.getElem?_eq_getElem hpc
    rw [issueCommand_accepts 0 { s with schedule := rest } _ hr hc, readBusy_zero] at h
    have hdraws : t.draws = s.draws := (runCommand_draws _ _ t h :)
    rw [issueCommand_accepts n { s with schedule := rest } _ hr hc, runCommand_readBusy n _ _ t h, readBusy_eq, hdraws]
  · rw [issueCommand_waits 0 { s with schedule := rest } hw] at h
    rw [issueCommand_waits n { s with schedule := rest } hw, h]

/-- A scheduled read of the port, taken off the schedule. -/
theorem step_of_read (s : State) (rest : List HostMove) (h : s.schedule = .read :: rest) :
    step s = .next ({ s with schedule := rest } : State).hostRead := by
  rw [step, nextMove, h]; rfl

/-- With `rst` low a read records the registers. -/
theorem hostRead_of_rst_low (s : State) (h : s.rst = false) : s.hostRead = { s with reads := s.reads ++ [s.observation] } :=
  if_pos (by simp [State.cmdReady, h])

/-- With `rst` high a read is a draw. -/
theorem hostRead_of_rst_high (s : State) (h : s.rst = true) : s.hostRead = s.drawRead :=
  if_neg (by simp [State.cmdReady, h])

/-- Settles O15: a read is the registers (`hostRead_of_rst_low`) or a draw (`hostRead_of_rst_high`). -/
theorem hostReadsShowTheRegisters : Obligations.HostReadsShowTheRegisters := by
  intro s rest h
  rw [step_of_read s rest h]
  exact ⟨fun hr => congrArg Host.Outcome.next (hostRead_of_rst_low { s with schedule := rest } hr),
    fun hr => congrArg Host.Outcome.next (hostRead_of_rst_high { s with schedule := rest } hr)⟩

/-- Bits below `k` are the same in two words whose numbers agree modulo `2^k`. -/
theorem extractLsb'_eq_of_mod_eq {w : Nat} (x y : BitVec w) (k start len : Nat) (hk : start + len ≤ k)
    (h : x.toNat % 2 ^ k = y.toNat % 2 ^ k) : x.extractLsb' start len = y.extractLsb' start len := by
  have hbits (v : BitVec w) (j : Nat) (hj : j < k) : v.getLsbD j = (v.toNat % 2 ^ k).testBit j := by
    simp [BitVec.getLsbD, Nat.testBit_mod_two_pow, hj]
  refine BitVec.eq_of_getLsbD_eq fun j hj => ?_
  rw [BitVec.getLsbD_extractLsb', BitVec.getLsbD_extractLsb', hbits x _ (by omega), hbits y _ (by omega), h]

/-- Settles O56: write byte `i` is a digit of OPA (`writeBytes_eq_digits`), and it lies below bit `8 CNT`. -/
theorem writeBytesAreLowBytesOfOpa : Obligations.WriteBytesAreLowBytesOfOpa := by
  refine ⟨writeBytes_length, fun cnt opa i hi => ?_, fun cnt opa opa' h => ?_⟩
  · rw [writeBytes_eq_digits, List.getElem?_map, List.getElem?_range hi, Option.map_some]
  · refine List.map_congr_left fun i hi => ?_
    have hlt : i < cnt.toNat := List.mem_range.1 hi
    exact extractLsb'_eq_of_mod_eq opa opa' (8 * cnt.toNat) (8 * i) 8 (by omega) h

end Sys2Proof.Machine
end

section
/-! SUPPORT. The streaming laws' two halves: what a run of WRITEs has left in a seeded context finalizes to the one-shot digest
(41_digest32.md R145, 42_digest128.md R169), and a SUM puts that digest into the results. -/

namespace Sys2Proof.Machine

/-- From a seeded CTX32, writes of at most 8 bytes each leave a context whose digest is the one-shot digest of their bytes. -/
theorem writes32_digest (chunks : List (List Byte)) (s : State) (hl : ∀ c ∈ chunks, c.length ≤ 8)
    (hs : s.ctx32.isSeeded) :
    ∃ v u, mm3_32 s.ctx32.seed32 chunks.flatten = some v ∧ execSeq (chunks.map write32Bytes) s = .next u ∧
      u.ctx32.buf32.length < 4 ∧ v = final32 u.ctx32.h32 u.ctx32.buf32 u.ctx32.tlen32 ∧ u.ctx128 = s.ctx128 := by
  obtain ⟨hh, hbuf, hlen⟩ := hs
  obtain ⟨h, b, u, ha, hb, hrun, h128, h32⟩ := writes32_next chunks s hl (by rw [hbuf]; decide)
  rw [hh, hbuf] at ha
  obtain ⟨hblocks, hrest⟩ := absorb32_fresh _ _ _ _ ha
  have htook : u.ctx32.h32 = h ∧ u.ctx32.buf32 = b ∧ u.ctx32.tlen32 = BitVec.ofNat 64 chunks.flatten.length := by
    rw [h32]; exact ⟨rfl, rfl, by simp [hlen]⟩
  obtain ⟨hacc, hleft, hcount⟩ := htook
  refine ⟨_, u, ?_, hrun, by rwa [hleft], rfl, h128⟩
  rw [mm3_32, hblocks, hacc, hleft, hcount, hrest]
  rfl

/-- The same for CTX128. -/
theorem writes128_digest (chunks : List (List Byte)) (s : State) (hl : ∀ c ∈ chunks, c.length ≤ 8)
    (hs : s.ctx128.isSeeded) :
    ∃ v u, mm3_128 s.ctx128.seed1 s.ctx128.seed2 chunks.flatten = some v ∧
      execSeq (chunks.map write128Bytes) s = .next u ∧ u.ctx128.buf128.length < 16 ∧
      v = final128 u.ctx128.lanes u.ctx128.buf128 u.ctx128.tlen128 ∧ u.ctx32 = s.ctx32 := by
  obtain ⟨hh1, hh2, hbuf, hlen⟩ := hs
  obtain ⟨l, b, u, ha, hb, hrun, h32, h128⟩ := writes128_next chunks s hl (by rw [hbuf]; decide)
  rw [Ctx128.lanes, hh1, hh2, hbuf] at ha
  obtain ⟨hblocks, hrest⟩ := absorb128_fresh _ _ _ _ ha
  have htook : u.ctx128.lanes = l ∧ u.ctx128.buf128 = b ∧ u.ctx128.tlen128 = BitVec.ofNat 64 chunks.flatten.length := by
    rw [h128]; exact ⟨rfl, rfl, by simp [hlen]⟩
  obtain ⟨hacc, hleft, hcount⟩ := htook
  refine ⟨_, u, ?_, hrun, by rwa [hleft], rfl, h32⟩
  rw [mm3_128, hblocks, hacc, hleft, hcount, hrest]
  rfl

/-- A first command, a list of commands and a last one, each going on, run in order. -/
theorem execSeq_cons_concat (i j : Instr) (is : List Instr) (s t u v : State) (hi : exec i s = .next t)
    (his : execSeq is t = .next u) (hj : exec j u = .next v) : execSeq (i :: is ++ [j]) s = .next v := by
  rw [List.cons_append, execSeq, hi, andThen_next, execSeq_append, his, andThen_next, execSeq, hj, andThen_next, execSeq]

/-- A command that seeds CTX32, then writes, then SUM32, give the one-shot digest and leave CTX128 as the first left it. -/
theorem stream32_digest (i : Instr) (chunks : List (List Byte)) (s s' : State) (hl : ∀ c ∈ chunks, c.length ≤ 8)
    (hi : exec i s = .next s') (hs : s'.ctx32.isSeeded) :
    ∃ v t, mm3_32 s'.ctx32.seed32 chunks.flatten = some v ∧
      execSeq (i :: chunks.map write32Bytes ++ [.sum32]) s = .next t ∧ t.res0 = v.setWidth 64 ∧ t.res1 = 0 ∧
      t.ctx128 = s'.ctx128 := by
  obtain ⟨v, u, hv, hrun, hb, hd, h128⟩ := writes32_digest chunks s' hl hs
  exact ⟨v, _, hv, execSeq_cons_concat i .sum32 _ s s' u _ hi hrun (execSum32_next u v hd hb), setResults_res0 ..,
    setResults_res1 .., (setResults_ctx128 ..).trans h128⟩

/-- A command that seeds CTX128, then writes, then SUM128 or SUM64, give the one-shot digest or its first lane, and leave CTX32
as the first left it. -/
theorem stream128_digest (i : Instr) (chunks : List (List Byte)) (s s' : State) (hl : ∀ c ∈ chunks, c.length ≤ 8)
    (hi : exec i s = .next s') (hs : s'.ctx128.isSeeded) :
    ∃ v t u, mm3_128 s'.ctx128.seed1 s'.ctx128.seed2 chunks.flatten = some v ∧
      (execSeq (i :: chunks.map write128Bytes ++ [.sum128]) s = .next t ∧ t.res0 = v.h1 ∧ t.res1 = v.h2 ∧
        t.ctx32 = s'.ctx32) ∧
      execSeq (i :: chunks.map write128Bytes ++ [.sum64]) s = .next u ∧ u.res0 = v.h1 ∧ u.res1 = 0 ∧
        u.ctx32 = s'.ctx32 := by
  obtain ⟨v, w, hv, hrun, hb, hd, h32⟩ := writes128_digest chunks s' hl hs
  exact ⟨v, _, _, hv,
    ⟨execSeq_cons_concat i .sum128 _ s s' w _ hi hrun (execSum128_next w v hd hb), setResults_res0 .., setResults_res1 ..,
      (setResults_ctx32 ..).trans h32⟩,
    execSeq_cons_concat i .sum64 _ s s' w _ hi hrun (execSum64_next w v hd hb), setResults_res0 .., setResults_res1 ..,
    (setResults_ctx32 ..).trans h32⟩

end Sys2Proof.Machine
end

section
/-! PROOFS. The ONESHOT pseudo-instructions (30_encoding.md R81). -/

namespace Sys2Proof.Machine

/-- Settles O49: each expansion seeds a context, writes the pieces of the bytes, which make them up (`pieces8_flatten`), and
ends with a SUM. -/
theorem oneShotPrograms : Obligations.OneShotPrograms := by
  intro bytes s
  have hl := pieces8_length bytes
  have hbytes := pieces8_flatten bytes
  refine ⟨fun seed => ?_, fun seed => ?_, fun a b => ?_⟩
  · obtain ⟨v, t, hv, hrun, h0, -⟩ := stream32_digest (.init32 seed) (pieces8 bytes) s _ hl rfl ⟨rfl, rfl, rfl⟩
    rw [hbytes] at hv
    exact ⟨v, t, hv, hrun, h0⟩
  · obtain ⟨v, -, t, hv, -, hrun, h0, -⟩ := stream128_digest (.init64 seed) (pieces8 bytes) s _ hl rfl ⟨rfl, rfl, rfl, rfl⟩
    rw [hbytes] at hv
    exact ⟨v, t, hv, hrun, h0⟩
  · obtain ⟨v, t, -, hv, ⟨hrun, h0, h1, -⟩, -⟩ :=
      stream128_digest (.init128 a b) (pieces8 bytes) s _ hl rfl ⟨rfl, rfl, rfl, rfl⟩
    rw [hbytes] at hv
    exact ⟨v, t, hv, hrun, h0, h1⟩

end Sys2Proof.Machine
end

section
/-! SUPPORT. The decoder, command by command: an opcode selects one command, whose operands are read off the triple and
checked by nothing but the command word (30_encoding.md R72 to R77). -/

namespace Sys2Proof

/-- The command with its operands read anew from a triple, as R73 lists them. -/
def Instr.withOperands (c : Command) : Instr → Instr
  | .init32 _ => .init32 (c.opa.setWidth 32)
  | .write32 _ _ => .write32 (cntField c.cmd) c.opa
  | .init128 _ _ => .init128 c.opa c.opb
  | .init64 _ => .init64 c.opa
  | .write128 _ _ => .write128 (cntField c.cmd) c.opa
  | .nop => .nop
  | .reset32 => .reset32
  | .sum32 => .sum32
  | .size32 => .size32
  | .reset128 => .reset128
  | .sum128 => .sum128
  | .sum64 => .sum64
  | .size128 => .size128
  | .size64 => .size64

@[simp] theorem opcode_withOperands (c : Command) (i : Instr) : (i.withOperands c).opcode = i.opcode := by cases i <;> rfl

@[simp] theorem hasCount_withOperands (c : Command) (i : Instr) : (i.withOperands c).hasCount = i.hasCount := by
  cases i <;> rfl

@[simp] theorem withOperands_withOperands (c c' : Command) (i : Instr) :
    (i.withOperands c').withOperands c = i.withOperands c := by cases i <;> rfl

/-- A triple selects a command exactly when it has its opcode and the command's operands are the triple's. -/
theorem selectOpcode_eq_some_iff (c : Command) (i : Instr) :
    selectOpcode c = some i ↔ opField c.cmd = i.opcode ∧ i.withOperands c = i := by
  constructor
  · intro h
    refine ⟨BitVec.eq_of_toNat_eq (selectOpcode_fields c i h).1.symm, ?_⟩
    unfold selectOpcode at h
    split at h <;> cases h <;> rfl
  · rintro ⟨ho, hi⟩
    rw [← hi, selectOpcode, ho]
    cases i <;> rfl

/-- The opcodes R76 assigns. -/
abbrev assignedOpcodes : List Nat :=
  [0x00, 0x01, 0x02, 0x03, 0x04, 0x05, 0x10, 0x11, 0x12, 0x13, 0x14, 0x15, 0x16, 0x17]

/-- One term of each command, its operands 0. -/
def oneOfEach : List Instr :=
  [.nop, .init32 0, .reset32, .write32 0 0, .sum32, .size32, .init128 0 0, .init64 0, .reset128, .write128 0 0, .sum128,
    .sum64, .size128, .size64]

/-- Every command's opcode is assigned. -/
theorem opcode_mem_assigned (i : Instr) : i.opcode.toNat ∈ assignedOpcodes := by
  cases i <;> simp [Instr.opcode]

/-- Every assigned opcode is some command's. -/
theorem exists_opcode_of_assigned : ∀ n ∈ assignedOpcodes, ∃ i ∈ oneOfEach, i.opcode.toNat = n := by decide

/-- The commands with a count are the two WRITEs (R72). -/
theorem hasCount_iff_opcode (i : Instr) : i.hasCount = true ↔ i.opcode.toNat ∈ [0x03, 0x13] := by
  cases i <;> simp [Instr.hasCount, Instr.opcode]

/-- An assigned opcode selects a command. -/
theorem selectOpcode_assigned (c : Command) (h : c.cmd.toNat % 256 ∈ assignedOpcodes) :
    ∃ i, selectOpcode c = some i ∧ i.opcode.toNat = c.cmd.toNat % 256 := by
  obtain ⟨i, -, hi⟩ := exists_opcode_of_assigned _ h
  refine ⟨i.withOperands c, (selectOpcode_eq_some_iff c _).2 ⟨?_, withOperands_withOperands c c i⟩, ?_⟩
  · apply BitVec.eq_of_toNat_eq
    rw [opcode_withOperands, hi, opField_toNat]
  · rw [opcode_withOperands, hi]

/-- An unassigned one selects none. -/
theorem selectOpcode_unassigned (c : Command) (h : c.cmd.toNat % 256 ∉ assignedOpcodes) : selectOpcode c = none := by
  refine Option.eq_none_iff_forall_ne_some.2 fun i hi => h ?_
  rw [← opField_toNat, ← (selectOpcode_fields c i hi).1]
  exact opcode_mem_assigned i

/-- The reserved field is zero where the word's number is below 2^12. -/
theorem rsvField_eq_zero_iff (w : Word32) : rsvField w = 0 ↔ w.toNat / 4096 = 0 := by
  rw [← rsvField_toNat]; exact BitVec.toNat_inj.symm

theorem cntField_eq_zero_iff (w : Word32) : cntField w = 0 ↔ w.toNat / 256 % 16 = 0 := by
  rw [← cntField_toNat]; exact BitVec.toNat_inj.symm

/-- R77's first check. -/
theorem decode_illegalOpcode (c : Command) (h : selectOpcode c = none) : decode c = .error .illegalOpcode := by
  rw [decode, h]

/-- R77's second check, on RSV. -/
theorem decode_reserved_rsv (c : Command) (i : Instr) (h : selectOpcode c = some i) (hr : rsvField c.cmd ≠ 0) :
    decode c = .error .reservedField := by
  rw [decode, h]; exact if_pos hr

/-- R77's second check, on the CNT of a command without a count. -/
theorem decode_reserved_cnt (c : Command) (i : Instr) (h : selectOpcode c = some i) (hr : rsvField c.cmd = 0)
    (hi : i.hasCount = false) (hc : cntField c.cmd ≠ 0) : decode c = .error .reservedField := by
  rw [decode, h]; exact (if_neg (not_not.2 hr)).trans (if_pos ⟨hi, hc⟩)

/-- R77's third check. -/
theorem decode_countRange (c : Command) (i : Instr) (h : selectOpcode c = some i) (hr : rsvField c.cmd = 0)
    (hi : i.hasCount = true) (hc : 8 < (cntField c.cmd).toNat) : decode c = .error .countRange := by
  rw [decode, h]; simp [hr, hi, Config.cntMax, hc]

/-- The checks read the command word alone: another triple with the same word decodes to the same error, or to the same
command with its own operands. -/
theorem decode_of_same_word (c c' : Command) (h : c.cmd = c'.cmd) :
    decode c' = (decode c).map (Instr.withOperands c') := by
  have hsel : selectOpcode c' = (selectOpcode c).map (Instr.withOperands c') := by
    cases hc : selectOpcode c with
    | none =>
      refine Option.eq_none_iff_forall_ne_some.2 fun i hi => ?_
      obtain ⟨ho, -⟩ := (selectOpcode_eq_some_iff c' i).1 hi
      have := (selectOpcode_eq_some_iff c (i.withOperands c)).2 ⟨by rw [h, ho, opcode_withOperands], by simp⟩
      rw [hc] at this; cases this
    | some i =>
      obtain ⟨ho, -⟩ := (selectOpcode_eq_some_iff c i).1 hc
      exact (selectOpcode_eq_some_iff c' _).2 ⟨by rw [← h, ho, opcode_withOperands], by simp⟩
  rw [decode, decode, hsel, h]
  cases selectOpcode c with
  | none => rfl
  | some i =>
    simp only [Option.map_some, hasCount_withOperands]
    split_ifs <;> rfl

/-- The row of R76's list that belongs to a command. -/
def Instr.row (i : Instr) : OpcodeRow :=
  { mnemonic := i.mnemonic, pattern := i.opcode.setWidth 32,
    mask := if i.hasCount then 0xFFFFF0FF else 0xFFFFFFFF, counted := i.hasCount }

theorem row_mem (i : Instr) : i.row ∈ opcodeRows := by
  cases i <;> simp [Instr.row, Instr.mnemonic, Instr.opcode, Instr.hasCount, opcodeRows]

@[simp] theorem row_withOperands (c : Command) (i : Instr) : (i.withOperands c).row = i.row := by cases i <;> rfl

/-- Every row belongs to some command. -/
theorem exists_row_eq : ∀ r ∈ opcodeRows, ∃ i ∈ oneOfEach, i.row = r := by decide

/-- The word that is an opcode alone. -/
theorem fields_opcode (o : BitVec 8) :
    opField (o.setWidth 32) = o ∧ cntField (o.setWidth 32) = 0 ∧ rsvField (o.setWidth 32) = 0 := by
  have ho := o.isLt
  have hw : (o.setWidth 32).toNat = o.toNat := by simp; omega
  refine ⟨BitVec.eq_of_toNat_eq ?_, ?_, ?_⟩
  · rw [opField_toNat, hw]; omega
  · rw [cntField_eq_zero_iff, hw]; omega
  · rw [rsvField_eq_zero_iff, hw]; omega

/-- A command's row selects the words with its opcode that pass R77's other checks. -/
theorem row_selects_iff (i : Instr) (w : Word32) :
    i.row.selects w = true ↔
      opField w = i.opcode ∧ rsvField w = 0 ∧ (i.hasCount = false → cntField w = 0) ∧
        (i.hasCount = true → (cntField w).toNat ≤ Config.cntMax) := by
  obtain ⟨ho, hc, hr⟩ := fields_opcode i.opcode
  cases hi : i.hasCount with
  | true =>
    have hrow : i.row = ⟨i.mnemonic, i.opcode.setWidth 32, 0xFFFFF0FF, true⟩ := by rw [Instr.row, hi]; rfl
    rw [hrow, selects_counted _ _ _ hc, ho, hr]; simp
  | false =>
    have hword : w = i.opcode.setWidth 32 ↔ opField w = i.opcode ∧ rsvField w = 0 ∧ cntField w = 0 :=
      ⟨by rintro rfl; exact ⟨ho, hr, hc⟩,
        fun ⟨h1, h2, h3⟩ => word_eq_of_fields _ _ (h1.trans ho.symm) (h3.trans hc.symm) (h2.trans hr.symm)⟩
    have hrow : i.row = ⟨i.mnemonic, i.opcode.setWidth 32, 0xFFFFFFFF, false⟩ := by rw [Instr.row, hi]; rfl
    rw [hrow, selects_bare, hword]; simp

/-- A triple decodes to a command exactly when the command's row selects its word and its operands are the triple's. -/
theorem decode_ok_iff_row (c : Command) (i : Instr) :
    decode c = .ok i ↔ i.row.selects c.cmd = true ∧ i.withOperands c = i := by
  rw [decode_ok_iff, selectOpcode_eq_some_iff, row_selects_iff]
  tauto

end Sys2Proof
end

section
/-! PROOFS. Decoding and encoding (30_encoding.md R71 to R77). -/

namespace Sys2Proof.Machine

/-- Settles O1: `decode_encode`, whose one checked field is the count. -/
theorem decodeInvertsEncode : Obligations.DecodeInvertsEncode :=
  decode_encode

/-- Settles O2: the decoded command has the word's opcode and count (`selectOpcode_fields`), and the word's RSV is 0. -/
theorem decodedWordsAreCanonical : Obligations.DecodedWordsAreCanonical := by
  intro c i h
  obtain ⟨hsel, hrsv, hbare, -⟩ := (decode_ok_iff c i).1 h
  obtain ⟨hop, hcounted, huncounted⟩ := selectOpcode_fields c i hsel
  have hcnt : i.countBits = cntField c.cmd := by
    cases hi : i.hasCount with
    | true => exact hcounted hi
    | false => rw [huncounted hi, hbare hi]
  refine ⟨wf_of_decode c i h, word_eq_of_fields i.commandWord c.cmd ?_ ?_ ?_⟩
  · rw [opField_commandWord]; exact BitVec.eq_of_toNat_eq hop
  · rw [cntField_commandWord, hcnt]
  · rw [rsvField_commandWord, hrsv]

/-- Settles O3: the opcode selects a command or none, and each later check is one lemma on the selected command. -/
theorem decodeChecksInOrder : Obligations.DecodeChecksInOrder := by
  intro c
  refine ⟨fun h => decode_illegalOpcode c (selectOpcode_unassigned c h), fun h => ?_⟩
  obtain ⟨i, hsel, hop⟩ := selectOpcode_assigned c h
  rw [← hop, ← hasCount_iff_opcode, ← cntField_toNat, Bool.not_eq_true]
  refine ⟨fun hr => decode_reserved_rsv c i hsel (mt (rsvField_eq_zero_iff c.cmd).1 hr), fun hr => ?_⟩
  have hrsv := (rsvField_eq_zero_iff c.cmd).2 hr
  refine ⟨fun hi hc => ?_, decode_countRange c i hsel hrsv, fun hle hz => ?_⟩
  · exact decode_reserved_cnt c i hsel hrsv hi fun h0 => hc (congrArg BitVec.toNat h0)
  · have hok := (decode_ok_iff c i).2 ⟨hsel, hrsv, fun hi => BitVec.eq_of_toNat_eq (hz hi), hle⟩
    refine ⟨i, hok, rfl, ?_⟩
    obtain ⟨-, hword⟩ := decodedWordsAreCanonical c i hok
    rw [← hword, ← cntField_commandWord]; rfl

/-- Settles O4: the decoded command's own row is the one the word meets (`decode_ok_iff_row`). -/
theorem decodeMeetsTheOpcodeTable : Obligations.DecodeMeetsTheOpcodeTable := by
  intro c
  refine ⟨fun r hr hs => ?_, fun i hd => ?_⟩
  · obtain ⟨i, -, rfl⟩ := exists_row_eq r hr
    have hrow : (i.withOperands c).row = i.row := row_withOperands c i
    exact ⟨i.withOperands c, (decode_ok_iff_row c _).2 ⟨by rwa [hrow], withOperands_withOperands c c i⟩,
      congrArg OpcodeRow.mnemonic hrow⟩
  · obtain ⟨hs, -⟩ := (decode_ok_iff_row c i).1 hd
    exact ⟨i.row, row_mem i, hs, rfl⟩

/-- Settles O5: the decoded command's operands are the triple's (`Instr.withOperands`), read as numbers. -/
theorem decodeReadsTheListedOperands : Obligations.DecodeReadsTheListedOperands := by
  intro c i hd
  obtain ⟨-, hops⟩ := (decode_ok_iff_row c i).1 hd
  have hw := wf_of_decode c i hd
  cases i with
  | init32 seed => cases hops; exact BitVec.toNat_setWidth 32 c.opa
  | init64 seed => cases hops; rfl
  | init128 seed1 seed2 => cases hops; exact ⟨rfl, rfl⟩
  | write32 cnt data | write128 cnt data =>
    cases hops
    exact ⟨cntField_toNat c.cmd, (countLegal_iff _).1 hw, writeBytes_eq_digits _ _⟩
  | nop | reset32 | sum32 | size32 | reset128 | sum128 | sum64 | size128 | size64 => trivial

/-- Settles O6: seven closed words, decoded. -/
theorem knownWordsDecode : Obligations.KnownWordsDecode := by
  unfold Obligations.KnownWordsDecode
  decide

/-- A WRITE reads its data only through its write bytes. -/
theorem exec_write_congr (cnt : BitVec 4) (data data' : Word64) (s : State) (h : writeBytes cnt data = writeBytes cnt data') :
    exec (.write32 cnt data) s = exec (.write32 cnt data') s ∧ exec (.write128 cnt data) s = exec (.write128 cnt data') s := by
  simp only [exec, execWrite32, execWrite128, h, and_self]

/-- Settles O7: both triples decode to one command with two sets of operands (`decode_of_same_word`), and these differ in no
bit the command reads. -/
theorem ignoredOperandBitsHaveNoEffect : Obligations.IgnoredOperandBitsHaveNoEffect := by
  intro c c' s hcmd h32 h128 h64 hwr
  have hsame := decode_of_same_word c c' hcmd
  cases hd : decode c with
  | error e =>
    rw [hd] at hsame
    rw [runCommand_error c e s hd, runCommand_error c' e s hsame]
  | ok i =>
    rw [hd] at hsame
    rw [runCommand_ok c i s hd, runCommand_ok c' _ s hsame]
    obtain ⟨hrow, hops⟩ := (decode_ok_iff_row c i).1 hd
    obtain ⟨hop, -⟩ := (row_selects_iff i c.cmd).1 hrow
    have hop' : c.cmd.toNat % 256 = i.opcode.toNat := by rw [← opField_toNat, hop]
    rw [← hops, withOperands_withOperands]
    obtain ⟨-, -, hlow⟩ := writeBytesAreLowBytesOfOpa
    have hbytes (ho : i.opcode.toNat = 0x03 ∨ i.opcode.toNat = 0x13) :
        writeBytes (cntField c.cmd) c.opa = writeBytes (cntField c.cmd) c'.opa :=
      hlow _ _ _ (by rw [cntField_toNat]; exact hwr (hop' ▸ ho))
    cases i with
    | init32 seed =>
      have hseed : c.opa.setWidth 32 = c'.opa.setWidth 32 := BitVec.eq_of_toNat_eq (by simpa using h32 hop')
      exact congrArg (fun v => exec (.init32 v) s) hseed
    | init64 seed => exact congrArg (fun v => exec (.init64 v) s) (h64 hop')
    | init128 a b =>
      obtain ⟨ha, hb⟩ := h128 hop'
      rw [Instr.withOperands, Instr.withOperands, ha, hb]
    | write32 cnt data =>
      rw [Instr.withOperands, Instr.withOperands, ← hcmd]
      exact (exec_write_congr _ _ _ s (hbytes (.inl rfl))).1
    | write128 cnt data =>
      rw [Instr.withOperands, Instr.withOperands, ← hcmd]
      exact (exec_write_congr _ _ _ s (hbytes (.inr rfl))).2
    | nop | reset32 | sum32 | size32 | reset128 | sum128 | sum64 | size128 | size64 => rfl

end Sys2Proof.Machine
end

section
/-! SUPPORT. The assembler (30_encoding.md R80): reading a mnemonic, and reading operands written as numbers. -/

namespace Sys2Proof.Machine

/-- The mnemonic of R80 that stands for a command. -/
def asmMnemonic : Instr → Mnemonic
  | .nop => .nop
  | .init32 _ => .init32
  | .reset32 => .reset32
  | .write32 _ _ => .write32
  | .sum32 => .sum32
  | .size32 => .size32
  | .init128 _ _ => .init128
  | .init64 _ => .init64
  | .reset128 => .reset128
  | .write128 _ _ => .write128
  | .sum128 => .sum128
  | .sum64 => .sum64
  | .size128 => .size128
  | .size64 => .size64

/-- Each command's name is read back as its mnemonic. -/
theorem readMnemonic_mnemonic (i : Instr) : readMnemonic i.mnemonic = some (asmMnemonic i) := by
  cases i <;> (simp only [Instr.mnemonic, asmMnemonic]; decide)

/-- A line whose mnemonic takes so many operands and expands is assembled to what it expands to. -/
theorem assemble_of_expand (name : String) (m : Mnemonic) (ops : List AsmOperand) (is : List Instr)
    (hm : readMnemonic name = some m) (hl : ops.length ≤ m.operandLimit) (he : m.expand ops = some is) :
    assemble name ops = some (is.map encode) := by
  rw [assemble, hm]
  simp [hl, he]

/-- A word written as its number in the first place is read back. -/
@[simp] theorem numberAt_first {w : Nat} (x : BitVec w) (ops : List AsmOperand) :
    numberAt w (.num x.toNat :: ops) 0 = some x := by
  simp [numberAt, x.isLt]

/-- In the second place too. -/
@[simp] theorem numberAt_second {w : Nat} (o : AsmOperand) (x : BitVec w) (ops : List AsmOperand) :
    numberAt w (o :: .num x.toNat :: ops) 1 = some x := by
  simp [numberAt, x.isLt]

/-- So are the two operands of a WRITE. -/
theorem writeOperands_toNat (cnt : BitVec 4) (data : Word64) :
    writeOperands [.num cnt.toNat, .num data.toNat] = some (cnt, data) := by
  simp [writeOperands]

/-- A byte list of at most 8 bytes is read as its count and its little-endian number. -/
theorem writeOperands_bytes (bs : List Byte) (h : bs.length ≤ 8) :
    writeOperands [.bytes bs] = some (BitVec.ofNat 4 bs.length, BitVec.ofNat 64 (leNat bs)) := by
  have hpack : packBytes bs = BitVec.ofNat 64 (leNat bs) := BitVec.eq_of_toNat_eq (toNat_leSum 64 bs)
  rw [← hpack]
  exact if_pos h

end Sys2Proof.Machine
end

section
/-! PROOFS. Every command has an assembler line (30_encoding.md R80). -/

namespace Sys2Proof.Machine

/-- Settles O8: the command's name is read as its mnemonic, and its operands, written as numbers, are read back. -/
theorem assemblerGivesEachCommand : Obligations.AssemblerGivesEachCommand := by
  refine ⟨fun i _ => ?_, fun bs hl => ⟨?_, ?_⟩⟩
  · refine assemble_of_expand i.mnemonic (asmMnemonic i) _ [i] (readMnemonic_mnemonic i) ?_ ?_
    · cases i <;> exact Nat.le_refl _
    · cases i with
      | init32 | init64 | init128 => simp [asmMnemonic, Mnemonic.expand]
      | write32 cnt data | write128 cnt data => simp [asmMnemonic, Mnemonic.expand, writeOperands_toNat]
      | nop | reset32 | sum32 | size32 | reset128 | sum128 | sum64 | size128 | size64 => rfl
  · exact assemble_of_expand "WRITE32" .write32 _ [_] (by decide) (Nat.le_succ 1)
      (by simp [Mnemonic.expand, writeOperands_bytes bs hl])
  · exact assemble_of_expand "WRITE128" .write128 _ [_] (by decide) (Nat.le_succ 1)
      (by simp [Mnemonic.expand, writeOperands_bytes bs hl])

end Sys2Proof.Machine
end

section
/-! PROOFS. Every command has a meaning (30_encoding.md R76), and a count above 8 means command error 3 (R75, R77). -/

namespace Sys2Proof.Machine

/-- A guarded command refuses only where the command itself does. -/
theorem guard32_ne_refused (s : State) (k : Result) (r : Refusal) (h : k ≠ .refused r) : guard32 s k ≠ .refused r := by
  unfold guard32
  split
  · exact h
  · exact nofun

/-- The same for the guard on BUF128. -/
theorem guard128_ne_refused (s : State) (k : Result) (r : Refusal) (h : k ≠ .refused r) : guard128 s k ≠ .refused r := by
  unfold guard128
  split
  · exact h
  · exact nofun

/-- WRITE32 is never refused. -/
theorem execWrite32_ne_refused (cnt : BitVec 4) (data : Word64) (s : State) (r : Refusal) :
    execWrite32 cnt data s ≠ .refused r := by
  unfold execWrite32
  split
  · refine guard32_ne_refused s _ r ?_
    split <;> exact nofun
  · exact nofun

/-- WRITE128 is never refused. -/
theorem execWrite128_ne_refused (cnt : BitVec 4) (data : Word64) (s : State) (r : Refusal) :
    execWrite128 cnt data s ≠ .refused r := by
  unfold execWrite128
  split
  · refine guard128_ne_refused s _ r ?_
    split <;> exact nofun
  · exact nofun

/-- No command is refused. -/
theorem exec_ne_refused (i : Instr) (s : State) (r : Refusal) : exec i s ≠ .refused r := by
  cases i with
  | write32 cnt data => exact execWrite32_ne_refused cnt data s r
  | write128 cnt data => exact execWrite128_ne_refused cnt data s r
  | sum32 => exact guard32_ne_refused s _ r nofun
  | sum128 | sum64 => exact guard128_ne_refused s _ r nofun
  | nop | init32 | reset32 | size32 | init128 | init64 | reset128 | size128 | size64 => exact nofun

/-- Nor is a command word: it runs as its command, or records its error. -/
theorem runCommand_ne_refused (c : Command) (s : State) (r : Refusal) : runCommand c s ≠ .refused r := by
  cases hd : decode c with
  | ok i => rw [runCommand_ok c i s hd]; exact exec_ne_refused i s r
  | error e => rw [runCommand_error c e s hd]; exact nofun

/-- Settles O41: of what a step can do (`step_cases`) only running a command could refuse, and no command does. -/
theorem nothingIsRefused : Obligations.NothingIsRefused := by
  intro s r
  obtain h | ⟨n, c, -, -, h⟩ | ⟨n, c, -, -, h⟩ | h | ⟨level, h⟩ := step_cases s <;> rw [h]
  · exact nofun
  · exact runCommand_ne_refused c _ r
  · exact nofun
  · exact nofun
  · exact nofun

/-- Settles O30: the one bound of `Instr.wf` fails, and both WRITEs only record the error. -/
theorem illFormedCountsRecordTheError : Obligations.IllFormedCountsRecordTheError := by
  intro cnt data s hc
  have hwf : countLegal cnt = false := countLegal_false cnt (Nat.not_le.2 hc)
  exact List.forall_mem_cons.2 ⟨⟨hwf, execWrite32_illegal cnt data s hc⟩,
    List.forall_mem_singleton.2 ⟨hwf, execWrite128_illegal cnt data s hc⟩⟩

end Sys2Proof.Machine
end

section
/-! SUPPORT. The datapath's words as natural numbers: bits of a rotation, little-endian sums, and the products and sums of the
mixers (40_datapath.md R100, R104, R105). -/

namespace Sys2Proof.Machine

/-- The two cases of `getLsbD_rotl` are one index modulo the width. -/
theorem getLsbD_rotl_mod {n : Nat} (x : BitVec n) (r i : Nat) (h0 : 0 < r) (hr : r < n) (hi : i < n) :
    (rotl x r).getLsbD i = x.getLsbD ((i + n - r) % n) := by
  rw [getLsbD_rotl x r i h0 hr hi]
  split
  next hlt => rw [Nat.mod_eq_of_lt (by omega), Nat.add_comm i n]
  next hge =>
    rw [show i + n - r = i - r + n by omega, Nat.add_mod_right, Nat.mod_eq_of_lt (by omega)]

/-- `leSum` as the word of a number. -/
theorem leSum_eq_ofNat (w : Nat) (s : List Byte) : leSum w s = BitVec.ofNat w (leNat s) :=
  BitVec.eq_of_toNat_eq (by rw [toNat_leSum, BitVec.toNat_ofNat])

/-- A word as wide as its bytes loses nothing of their number. -/
theorem toNat_leSum_whole (n : Nat) (s : List Byte) (h : s.length = n) : (leSum (8 * n) s).toNat = leNat s := by
  have hlt : leNat s < 2 ^ (8 * n) := by
    rw [Nat.pow_mul, ← h]
    exact leNat_lt s
  rw [toNat_leSum, Nat.mod_eq_of_lt hlt]

/-- Multiplying by a constant, as arithmetic. -/
theorem toNat_mul_ofNat {n : Nat} (x : BitVec n) (m : Nat) : (x * BitVec.ofNat n m).toNat = x.toNat * m % 2 ^ n := by
  rw [BitVec.toNat_mul, BitVec.toNat_ofNat, Nat.mul_mod_mod]

/-- Multiplying by a constant and adding another is reduced only once. -/
theorem toNat_mul_add_ofNat {n : Nat} (x : BitVec n) (m a : Nat) :
    (x * BitVec.ofNat n m + BitVec.ofNat n a).toNat = (x.toNat * m + a) % 2 ^ n := by
  rw [BitVec.toNat_add, toNat_mul_ofNat, BitVec.toNat_ofNat, ← Nat.add_mod]

/-- The same with a sum under the product. -/
theorem toNat_add_mul_add_ofNat {n : Nat} (x y : BitVec n) (m a : Nat) :
    ((x + y) * BitVec.ofNat n m + BitVec.ofNat n a).toNat = ((x.toNat + y.toNat) * m + a) % 2 ^ n := by
  rw [toNat_mul_add_ofNat, BitVec.toNat_add, Nat.add_mod, Nat.mod_mul_mod, ← Nat.add_mod]

/-- The word mixer of `kmix32`, `kmix1` and `kmix2`: multiply, rotate, multiply. -/
theorem toNat_mul_rotl_mul {n : Nat} (k : BitVec n) (c r d : Nat) (hr : r < n) :
    (rotl (k * BitVec.ofNat n c) r * BitVec.ofNat n d).toNat = rotNat n (k.toNat * c % 2 ^ n) r * d % 2 ^ n := by
  rw [toNat_mul_ofNat, toNat_rotl _ r hr, toNat_mul_ofNat]

/-- The avalanche of `fmix32` and `fmix64`: three shift-xors with two products between them. -/
theorem toNat_xorShift_mul_twice {n : Nat} (x : BitVec n) (i j k c d : Nat) :
    (xorShift (xorShift (xorShift x i * BitVec.ofNat n c) j * BitVec.ofNat n d) k).toNat =
      shiftXorNat (shiftXorNat (shiftXorNat x.toNat i * c % 2 ^ n) j * d % 2 ^ n) k := by
  rw [toNat_xorShift, toNat_mul_ofNat, toNat_xorShift, toNat_mul_ofNat, toNat_xorShift]

end Sys2Proof.Machine
end

section
/-! SUPPORT. What each tail does to its accumulator, and a cross-add (40_datapath.md R110, R117, R119). -/

namespace Sys2Proof.Machine

/-- An empty tail leaves the accumulator. -/
@[simp] theorem tail32_nil (h : Word32) : tail32 h [] = h := rfl

/-- Any other is one XOR of its mixed number. -/
theorem tail32_of_pos (h : Word32) (t : List Byte) (ht : 0 < t.length) :
    tail32 h t = h ^^^ kmix32 (BitVec.ofNat 32 (leNat t)) := by
  rw [tail32, if_neg (Nat.ne_of_gt ht), leSum_eq_ofNat]

/-- An empty tail leaves both lanes. -/
@[simp] theorem tail128_nil (l : Lanes) : tail128 l [] = l := rfl

/-- A tail of at most 8 bytes reaches lane 1 alone. -/
theorem tail128_short (l : Lanes) (t : List Byte) (h0 : 0 < t.length) (h8 : t.length ≤ 8) :
    tail128 l t = { h1 := l.h1 ^^^ kmix1 (BitVec.ofNat 64 (leNat t)), h2 := l.h2 } := by
  rw [tail128, if_pos h0, if_neg (Nat.not_lt.2 h8), List.take_of_length_le h8, leSum_eq_ofNat]

/-- A longer one is its first 8 bytes for lane 1 and the others for lane 2. -/
theorem tail128_long (l : Lanes) (t u : List Byte) (ht : t.length = 8) (hu : 0 < u.length) :
    tail128 l (t ++ u) =
      { h1 := l.h1 ^^^ kmix1 (BitVec.ofNat 64 (leNat t)), h2 := l.h2 ^^^ kmix2 (BitVec.ofNat 64 (leNat u)) } := by
  have hlen : 8 < (t ++ u).length := by rw [List.length_append]; omega
  rw [tail128, if_pos (Nat.zero_lt_of_lt hlen), if_pos hlen, List.take_left' ht, List.drop_left' ht, leSum_eq_ofNat,
    leSum_eq_ofNat]

/-- A cross-add, its two sums named in R119's order. -/
theorem crossAdd_eq {a b c d : Word64} (hc : c = a + b) (hd : d = b + c) :
    Lanes.crossAdd { h1 := a, h2 := b } = { h1 := c, h2 := d } := by
  rw [Lanes.crossAdd, hd, hc]

end Sys2Proof.Machine
end

section
/-! PROOFS. The datapath: rotation, block reads, tails and the two mixers (40_datapath.md R100 to R120). -/

namespace Sys2Proof.Machine

/-- Settles O54: `getLsbD_rotl_mod`, at both widths. -/
theorem rotationMovesEveryBit : Obligations.RotationMovesEveryBit :=
  ⟨getLsbD_rotl_mod, getLsbD_rotl_mod⟩

/-- Settles O55: the word of a read inside the bytes is their whole number (`toNat_leSum_whole`), whose digits are the bytes
(`leNat_digit`). -/
theorem blockReadIsLittleEndian : Obligations.BlockReadIsLittleEndian := by
  intro s o n
  refine ⟨fun hin => ⟨_, le_eq_some s o n hin, fun j b hj hb => ?_⟩, le_eq_none s o n, rfl, rfl⟩
  have hlen : ((s.drop o).take n).length = n := by simp; omega
  obtain ⟨_, hget⟩ := List.getElem?_eq_some_iff.1 hb
  rw [toNat_leSum_whole n _ hlen, leNat_digit _ j (hj.trans_eq hlen.symm), List.getElem_take, List.getElem_drop, hget]

/-- Settles O57: one lemma per length of the tail and width. -/
theorem tailsAreFoldedByOneXor : Obligations.TailsAreFoldedByOneXor :=
  ⟨tail32_nil, fun h t h0 _ => tail32_of_pos h t h0, tail128_nil, tail128_short,
    fun l t u ht hu _ => tail128_long l t u ht hu⟩

/-- Settles O58: each formula is one of the mixers' shapes, read as arithmetic. -/
theorem mixer32InNaturalNumbers : Obligations.Mixer32InNaturalNumbers := by
  intro h k
  refine ⟨toNat_mul_rotl_mul k _ 15 _ (by decide), ?_, toNat_xorShift_mul_twice h 16 13 16 _ _, fun t len => ?_⟩
  · rw [round32, toNat_mul_add_ofNat, toNat_rotl _ 13 (by decide), BitVec.toNat_xor]
  · rw [final32, BitVec.ofNat_toNat]

/-- Settles O59: the same shapes at 64 bits, and each lane's sum under its product (`toNat_add_mul_add_ofNat`). -/
theorem mixer128InNaturalNumbers : Obligations.Mixer128InNaturalNumbers := by
  intro l k1 k2
  refine ⟨toNat_mul_rotl_mul k1 _ 31 _ (by decide), toNat_mul_rotl_mul k2 _ 33 _ (by decide), ?_, ?_,
    toNat_xorShift_mul_twice k1 33 33 33 _ _⟩
  · rw [round128, toNat_add_mul_add_ofNat, toNat_rotl _ 27 (by decide), BitVec.toNat_xor]
  · rw [round128, toNat_add_mul_add_ofNat, toNat_rotl _ 31 (by decide), BitVec.toNat_xor]

/-- Settles O60: the stages of `final128` in order, each answering the next named pair. -/
theorem final128RunsItsStages : Obligations.Final128RunsItsStages := by
  intro l t len a b c d e f ha hb hc hd he hf
  have hlength : (tail128 l t).xorLength len = { h1 := a, h2 := b } := by rw [Lanes.xorLength, ha, hb]
  have hsum : Lanes.crossAdd { h1 := a, h2 := b } = { h1 := c, h2 := d } := crossAdd_eq hc hd
  have hmix : Lanes.avalanche { h1 := c, h2 := d } = { h1 := fmix64 c, h2 := fmix64 d } := rfl
  have hfinal : final128 l t len = { h1 := e, h2 := f } := by
    rw [final128, hlength, hsum, hmix, crossAdd_eq he hf]
  exact ⟨hfinal, by rw [final64, hfinal]⟩

end Sys2Proof.Machine
end

section
/-! SUPPORT. The words of one opcode (30_encoding.md R72 to R77): which of them decode to its command, and that every other one
only records its error (60_exceptions.md R203). -/

namespace Sys2Proof

/-- A word with a command's opcode selects that command, its operands read off the triple. -/
theorem selectOpcode_of_opcode (c : Command) (i : Instr) (h : opField c.cmd = i.opcode) :
    selectOpcode c = some (i.withOperands c) :=
  (selectOpcode_eq_some_iff c _).2 ⟨by rw [h, opcode_withOperands], withOperands_withOperands c c i⟩

/-- The word that is an opcode alone decodes to the opcode's command, whatever is on the operand buses. -/
theorem decode_bareWord (i : Instr) (opa opb : Word64) :
    decode ⟨i.opcode.setWidth 32, opa, opb⟩ = .ok (i.withOperands ⟨i.opcode.setWidth 32, opa, opb⟩) := by
  obtain ⟨hop, hcnt, hrsv⟩ := fields_opcode i.opcode
  exact decode_of_fields _ opa opb _ (selectOpcode_of_opcode _ i hop) hrsv hcnt

/-- The fields of an opcode with a count above it. -/
theorem fields_countedWord (o : BitVec 8) (cnt : BitVec 4) :
    opField (BitVec.ofNat 32 (o.toNat + 256 * cnt.toNat)) = o ∧
      cntField (BitVec.ofNat 32 (o.toNat + 256 * cnt.toNat)) = cnt ∧
      rsvField (BitVec.ofNat 32 (o.toNat + 256 * cnt.toNat)) = 0 := by
  have ho := o.isLt
  have hcnt := cnt.isLt
  have hw : (BitVec.ofNat 32 (o.toNat + 256 * cnt.toNat)).toNat = o.toNat + 256 * cnt.toNat :=
    Machine.toNat_constant 32 _ (by omega)
  refine ⟨BitVec.eq_of_toNat_eq ?_, BitVec.eq_of_toNat_eq ?_, ?_⟩
  · rw [opField_toNat, hw]; omega
  · rw [cntField_toNat, hw]; omega
  · rw [rsvField_eq_zero_iff, hw]; omega

/-- The opcode of a command with a count, below a count of 0 to 8, decodes to the command. -/
theorem decode_countedWord (i : Instr) (hi : i.hasCount = true) (cnt : BitVec 4) (hc : cnt.toNat ≤ 8) (c : Command)
    (hw : c.cmd = BitVec.ofNat 32 (i.opcode.toNat + 256 * cnt.toNat)) : decode c = .ok (i.withOperands c) := by
  obtain ⟨hop, hcnt, hrsv⟩ := fields_countedWord i.opcode cnt
  rw [← hw] at hop hcnt hrsv
  refine (decode_ok_iff c _).2 ⟨selectOpcode_of_opcode c i hop, hrsv, fun hf => ?_, fun _ => by rwa [hcnt]⟩
  rw [hasCount_withOperands, hi] at hf; cases hf

end Sys2Proof

namespace Sys2Proof.Machine

/-- A command that does not decode does nothing but record its error. -/
theorem onlyRecords_of_decode (c : Command) (e : CommandError) (h : decode c = .error e) : onlyRecords e c :=
  ⟨h, fun s => runCommand_error c e s h⟩

/-- Of the words with the opcode of a command without a count, each one but the opcode alone only records error 2. -/
theorem onlyBareWord_opcode (i : Instr) (hi : i.hasCount = false) : onlyBareWord i.opcode.toNat := by
  intro c hop hne
  have hsel := selectOpcode_of_opcode c i (BitVec.eq_of_toNat_eq ((opField_toNat c.cmd).trans hop))
  refine onlyRecords_of_decode c _ ?_
  by_cases hr : rsvField c.cmd = 0
  · refine decode_reserved_cnt c _ hsel hr ((hasCount_withOperands c i).trans hi) fun hz => hne ?_
    have hrsv := (rsvField_eq_zero_iff c.cmd).1 hr
    have hcnt := (cntField_eq_zero_iff c.cmd).1 hz
    omega
  · exact decode_reserved_rsv c _ hsel hr

/-- Of the words with the opcode of a command with a count, one with a set reserved bit only records error 2, and any other with
a count above 8 only records error 3. -/
theorem onlyCountedWords_opcode (i : Instr) (hi : i.hasCount = true) : onlyCountedWords i.opcode.toNat := by
  intro c hop
  have hsel := selectOpcode_of_opcode c i (BitVec.eq_of_toNat_eq ((opField_toNat c.cmd).trans hop))
  refine ⟨fun hr => onlyRecords_of_decode c _ ?_, fun hr hc => onlyRecords_of_decode c _ ?_⟩
  · exact decode_reserved_rsv c _ hsel (mt (rsvField_eq_zero_iff c.cmd).1 hr)
  · exact decode_countRange c _ hsel ((rsvField_eq_zero_iff c.cmd).2 hr) ((hasCount_withOperands c i).trans hi)
      (by rwa [cntField_toNat])

end Sys2Proof.Machine
end

section
/-! SUPPORT. A WRITE with a legal count, as one equation: the byte-serial loop gives the accumulator and the buffer
(41_digest32.md R142, 42_digest128.md R163). And what every command of a sequence keeps, the sequence keeps. -/

namespace Sys2Proof.Machine

/-- WRITE32 in full: what the loop leaves, the length moved, the count recorded, and nothing else. -/
theorem exec_write32_eq (cnt : BitVec 4) (data : Word64) (s : State) (hc : cnt.toNat ≤ 8)
    (hb : s.ctx32.buf32.length < 4) :
    ∃ h u, absorb 4 mixBlock32 s.ctx32.h32 s.ctx32.buf32 (writeBytes cnt data) = some (h, u) ∧
      exec (.write32 cnt data) s =
        .next { s with
                ctx32 :=
                  { seed32 := s.ctx32.seed32, h32 := h, buf32 := u,
                    tlen32 := BitVec.ofNat 64 (s.ctx32.tlen32.toNat + cnt.toNat) },
                status := { err := s.status.err, ecode := s.status.ecode, lastCnt := cnt } } := by
  obtain ⟨c, ht, he⟩ := execWrite32_next cnt data s hc hb
  obtain ⟨h, u, ha⟩ := absorb_isSome (by decide : 0 < 4) (fun a s hs => ⟨_, mixBlock32_whole a s hs⟩)
    (writeBytes cnt data) s.ctx32.h32 s.ctx32.buf32 hb
  simp only [Ctx32.take, Config.blk32, ha, Option.some.injEq, add_count] at ht
  subst ht
  exact ⟨h, u, ha, he⟩

/-- WRITE128 in full. -/
theorem exec_write128_eq (cnt : BitVec 4) (data : Word64) (s : State) (hc : cnt.toNat ≤ 8)
    (hb : s.ctx128.buf128.length < 16) :
    ∃ l u, absorb 16 mixBlock128 s.ctx128.lanes s.ctx128.buf128 (writeBytes cnt data) = some (l, u) ∧
      exec (.write128 cnt data) s =
        .next { s with
                ctx128 :=
                  { seed1 := s.ctx128.seed1, seed2 := s.ctx128.seed2, h1 := l.h1, h2 := l.h2, buf128 := u,
                    tlen128 := BitVec.ofNat 64 (s.ctx128.tlen128.toNat + cnt.toNat) },
                status := { err := s.status.err, ecode := s.status.ecode, lastCnt := cnt } } := by
  obtain ⟨c, ht, he⟩ := execWrite128_next cnt data s hc hb
  obtain ⟨l, u, ha⟩ := absorb_isSome (by decide : 0 < 16) (fun a s hs => ⟨_, mixBlock128_whole a s hs⟩)
    (writeBytes cnt data) s.ctx128.lanes s.ctx128.buf128 hb
  simp only [Ctx128.take, Config.blk128, ha, Option.some.injEq, add_count] at ht
  subst ht
  exact ⟨l, u, ha, he⟩

/-- A WRITE of no bytes has none. -/
theorem writeBytes_zero (data : Word64) : writeBytes 0 data = [] := rfl

/-- One pass of the 32-bit loop, as R142 writes it. -/
theorem absorbByte32_eq (h : Word32) (buf : List Byte) (b : Byte) :
    absorbByte 4 mixBlock32 h buf b =
      if (buf ++ [b]).length = 4 then (le32 (buf ++ [b]) 0).map fun k => (round32 h k, []) else some (h, buf ++ [b]) := by
  rw [absorbByte, mixBlock32, Option.map_map]; rfl

/-- What every command of a sequence keeps, the sequence keeps. -/
theorem execSeq_keeps {α : Type} (f : State → α) (is : List Instr)
    (hk : ∀ i ∈ is, ∀ s t, exec i s = .next t → f t = f s) : ∀ s t, execSeq is s = .next t → f t = f s := by
  induction is with
  | nil => intro s t h; cases h; rfl
  | cons i is ih =>
    intro s t h
    obtain ⟨u, hi, hrest⟩ := (andThen_eq_next _ _ t).1 h
    exact (ih (fun j hj => hk j (List.mem_cons_of_mem i hj)) u t hrest).trans (hk i List.mem_cons_self s u hi)

end Sys2Proof.Machine
end

section
/-! PROOFS. The five commands of the 32-bit digest and its streaming laws (41_digest32.md). -/

namespace Sys2Proof.Machine

/-- Settles O46: INIT32 seeds CTX32, and from a seeded context writes and SUM32 give the digest (`stream32_digest`, by induction
over the chunks in `writes32_next`). -/
theorem streamingEqualsOneShot32 : Obligations.StreamingEqualsOneShot32 := by
  intro seed chunks s hl
  exact stream32_digest (.init32 seed) chunks s _ hl rfl ⟨rfl, rfl, rfl⟩

/-- Settles O50: RESET32 leaves the context that INIT32 with its own seed does, so both runs give that seed's digest. -/
theorem resetCorrectness32 : Obligations.ResetCorrectness32 := by
  intro chunks s hl
  obtain ⟨v, t, hv, hrun, h0, -⟩ := stream32_digest .reset32 chunks s _ hl rfl ⟨rfl, rfl, rfl⟩
  obtain ⟨w, u, hw, hrun', h0', -⟩ := streamingEqualsOneShot32 s.ctx32.seed32 chunks s hl
  have hvw : v = w := Option.some.inj (hv.symm.trans hw)
  exact ⟨v, t, u, hv, hrun, hrun', h0, by rw [h0', h0, hvw]⟩

/-- Settles O52: the commands between keep CTX32, and SUM32 reads nothing else. -/
theorem sum32IsRepeatable : Obligations.Sum32IsRepeatable := by
  intro is s t u hw hs hseq
  obtain ⟨hb, d, hd, rfl⟩ := execSum32_cases s t hs
  have hctx : u.ctx32 = s.ctx32 := by
    rw [execSeq_keeps State.ctx32 is (fun i hi s t => exec_keeps_ctx32 i s t (hw i hi)) _ u hseq, setResults_ctx32]
  rw [← hctx] at hb hd
  exact ⟨_, execSum32_next u d hd hb, by rw [setResults_res0, setResults_res0]⟩

/-- Settles O21: the model's loop is the fold of its passes over the write bytes (`absorb_eq_foldl`), and each pass is R142's
(`absorbByte32_eq`). -/
theorem write32RunsTheByteLoop : Obligations.Write32RunsTheByteLoop := by
  refine ⟨fun cnt opa opb hc => ?_, onlyCountedWords_opcode (.write32 0 0) rfl, fun cnt data s hc hb => ?_⟩
  · rw [decode_countedWord (.write32 0 0) rfl cnt hc _ rfl, Instr.withOperands]
    obtain ⟨-, hcnt, -⟩ := fields_countedWord 0x03 cnt
    exact congrArg (fun k => Except.ok (Instr.write32 k opa)) hcnt
  · obtain ⟨h, u, ha, he⟩ := exec_write32_eq cnt data s hc hb
    have hu := absorb_length (by decide) _ _ _ _ _ hb ha
    rw [absorb_eq_foldl, writeBytes_eq_digits, List.foldl_map] at ha
    simp only [absorbByte32_eq] at ha
    exact ⟨h, u, ha, by omega, he⟩

/-- Settles O23: the loop mixes the whole blocks of buffer and bytes (`absorb_eq_mixBlocks`), which are the reference's. -/
theorem write32MixesWholeBlocks : Obligations.Write32MixesWholeBlocks := by
  intro cnt data s hc hb stream hstream
  obtain ⟨h, u, ha, he⟩ := exec_write32_eq cnt data s hc hb
  rw [absorb_eq_mixBlocks (by decide) _ _ _ hb, writeBytes_eq_digits, ← hstream,
    mixBlocks_eq_blocks32 _ _ _ (by omega), Option.map_eq_some_iff] at ha
  obtain ⟨a, hblocks, hleft⟩ := ha
  cases hleft
  exact ⟨h, hblocks, he⟩

/-- Settles O19: each bare word decodes, every other word of the opcode only records its error, and seeding is one update. -/
theorem seedingCommands32 : Obligations.SeedingCommands32 :=
  ⟨decode_bareWord (.init32 0), onlyBareWord_opcode (.init32 0) rfl, fun _ _ => rfl,
    decode_bareWord .reset32, onlyBareWord_opcode .reset32 rfl, fun _ => rfl⟩

/-- Settles O25: with no bytes the loop leaves accumulator and buffer as they are, and 0 is added to the length. -/
theorem emptyWriteOnlySetsLastCount : Obligations.EmptyWriteOnlySetsLastCount := by
  intro data s hbuf
  obtain ⟨hb32, hb128⟩ := hbuf
  have hlen (n : Word64) : BitVec.ofNat 64 (n.toNat + (0 : BitVec 4).toNat) = n := BitVec.eq_of_toNat_eq (by simp)
  constructor
  · obtain ⟨h, u, ha, he⟩ := exec_write32_eq 0 data s (by decide) hb32
    rw [writeBytes_zero, absorb] at ha
    cases ha
    rw [he, hlen]
  · obtain ⟨l, u, ha, he⟩ := exec_write128_eq 0 data s (by decide) hb128
    rw [writeBytes_zero, absorb] at ha
    cases ha
    rw [he, hlen]; rfl

/-- Settles O26: `execSum32_next`, with the digest a variable. -/
theorem sum32WritesTheDigest : Obligations.Sum32WritesTheDigest := by
  refine ⟨decode_bareWord .sum32, onlyBareWord_opcode .sum32 rfl, fun s hb => ?_⟩
  generalize hd : final32 s.ctx32.h32 s.ctx32.buf32 s.ctx32.tlen32 = d
  rw [BitVec.ofNat_toNat]
  exact execSum32_next s d hd.symm hb

/-- Settles O28: each bare word decodes, every other word of the opcode only records its error, and the width is a constant. -/
theorem sizeCommandsReportTheWidth : Obligations.SizeCommandsReportTheWidth :=
  ⟨decode_bareWord .size32, onlyBareWord_opcode .size32 rfl, decode_bareWord .size128,
    onlyBareWord_opcode .size128 rfl, decode_bareWord .size64, onlyBareWord_opcode .size64 rfl,
    fun _ => ⟨rfl, rfl, rfl⟩⟩

end Sys2Proof.Machine
end

section
/-! SUPPORT. One pass of the 128-bit loop as R163 writes it, and the SUMs of CTX128 after commands that leave it alone
(42_digest128.md R168, R170). -/

namespace Sys2Proof.Machine

/-- One pass of the 128-bit loop, as R163 writes it. -/
theorem absorbByte128_eq (l : Lanes) (buf : List Byte) (b : Byte) :
    absorbByte 16 mixBlock128 l buf b =
      if (buf ++ [b]).length = 16 then
        (le64 (buf ++ [b]) 0).bind fun k1 => (le64 (buf ++ [b]) 8).map fun k2 => (round128 l k1 k2, [])
      else some (l, buf ++ [b]) := by
  rw [absorbByte, mixBlock128]
  cases le64 (buf ++ [b]) 0 with
  | none => rfl
  | some k1 => cases le64 (buf ++ [b]) 8 <;> rfl

/-- After results are written and commands run that do not write CTX128, SUM128 and SUM64 still give the digest of the CTX128
before. -/
theorem sums128_after (is : List Instr) (s u : State) (r0 r1 : Word64) (d : Lanes)
    (hd : d = final128 s.ctx128.lanes s.ctx128.buf128 s.ctx128.tlen128) (hb : s.ctx128.buf128.length < 16)
    (hw : ∀ i ∈ is, writesCtx128 i = false) (hseq : execSeq is (s.setResults r0 r1) = .next u) :
    exec .sum128 u = .next (u.setResults d.h1 d.h2) ∧ exec .sum64 u = .next (u.setResults d.h1 0) := by
  have hctx : u.ctx128 = s.ctx128 := by
    rw [execSeq_keeps State.ctx128 is (fun i hi s t => exec_keeps_ctx128 i s t (hw i hi)) _ u hseq, setResults_ctx128]
  rw [← hctx] at hb hd
  exact ⟨execSum128_next u d hd hb, execSum64_next u d hd hb⟩

end Sys2Proof.Machine
end

section
/-! PROOFS. The commands of the 128-bit digest and its 64-bit view, and their streaming laws (42_digest128.md). -/

namespace Sys2Proof.Machine

/-- Settles O47: INIT128 seeds CTX128, and from a seeded context writes and SUM128 give the digest (`stream128_digest`, by
induction over the chunks in `writes128_next`). -/
theorem streamingEqualsOneShot128 : Obligations.StreamingEqualsOneShot128 := by
  intro a b chunks s hl
  obtain ⟨v, t, -, hv, ht, -⟩ := stream128_digest (.init128 a b) chunks s _ hl rfl ⟨rfl, rfl, rfl, rfl⟩
  exact ⟨v, t, hv, ht⟩

/-- Settles O48: INIT64 seeds both lanes with one seed, and SUM64 gives the first lane of that digest (`stream128_digest`). -/
theorem streamingEqualsOneShot64 : Obligations.StreamingEqualsOneShot64 := by
  intro seed chunks s hl
  obtain ⟨v, -, u, hv, -, hrun, h0, h1, -⟩ := stream128_digest (.init64 seed) chunks s _ hl rfl ⟨rfl, rfl, rfl, rfl⟩
  exact ⟨v, u, hv, hrun, h0, h1⟩

/-- Settles O51: RESET128 leaves the context that INIT128 with its own seeds does, so all four runs give those seeds' digest. -/
theorem resetCorrectness128 : Obligations.ResetCorrectness128 := by
  intro chunks s hl
  obtain ⟨v, t, w, hv, ⟨ht, ht0, ht1, -⟩, hw, hw0, hw1, -⟩ :=
    stream128_digest .reset128 chunks s _ hl rfl ⟨rfl, rfl, rfl, rfl⟩
  obtain ⟨v', u, x, hv', ⟨hu, hu0, hu1, -⟩, hx, hx0, hx1, -⟩ :=
    stream128_digest (.init128 s.ctx128.seed1 s.ctx128.seed2) chunks s _ hl rfl ⟨rfl, rfl, rfl, rfl⟩
  have hvv : v' = v := Option.some.inj (hv'.symm.trans hv)
  rw [hvv] at hu0 hu1 hx0
  exact ⟨v, t, u, w, x, hv, ht, hu, hw, hx, ht0, ht1, hu0.trans ht0.symm, hu1.trans ht1.symm, hw0, hw1,
    hx0.trans hw0.symm, hx1.trans hw1.symm⟩

/-- Settles O53: the commands between keep CTX128, so both SUMs after them give the digest of the first (`sums128_after`). -/
theorem sum128AndSum64AreRepeatable : Obligations.Sum128AndSum64AreRepeatable := by
  intro is s t u hw hseq
  refine ⟨fun hs => ?_, fun hs => ?_⟩
  · obtain ⟨hb, d, hd, rfl⟩ := execSum128_cases s t hs
    obtain ⟨h128, h64⟩ := sums128_after is s u _ _ d hd hb hw hseq
    exact ⟨_, _, h128, by simp, by simp, h64, by simp, by simp⟩
  · obtain ⟨hb, d, hd, rfl⟩ := execSum64_cases s t hs
    obtain ⟨h128, h64⟩ := sums128_after is s u _ _ d hd hb hw hseq
    exact ⟨_, _, h64, by simp, by simp, by simp, h128, by simp⟩

/-- Settles O22: the model's loop is the fold of its passes over the write bytes (`absorb_eq_foldl`), and each pass is R163's
(`absorbByte128_eq`). -/
theorem write128RunsTheByteLoop : Obligations.Write128RunsTheByteLoop := by
  refine ⟨fun cnt opa opb hc => ?_, onlyCountedWords_opcode (.write128 0 0) rfl, fun cnt data s hc hb => ?_⟩
  · rw [decode_countedWord (.write128 0 0) rfl cnt hc _ rfl, Instr.withOperands]
    obtain ⟨-, hcnt, -⟩ := fields_countedWord 0x13 cnt
    exact congrArg (fun k => Except.ok (Instr.write128 k opa)) hcnt
  · obtain ⟨l, u, ha, he⟩ := exec_write128_eq cnt data s hc hb
    have hu := absorb_length (by decide) _ _ _ _ _ hb ha
    rw [absorb_eq_foldl, writeBytes_eq_digits, List.foldl_map] at ha
    simp only [absorbByte128_eq] at ha
    exact ⟨l, u, ha, by omega, he⟩

/-- Settles O24: the loop mixes the whole blocks of buffer and bytes (`absorb_eq_mixBlocks`), which are the reference's. -/
theorem write128MixesWholeBlocks : Obligations.Write128MixesWholeBlocks := by
  intro cnt data s hc hb stream hstream
  obtain ⟨l, u, ha, he⟩ := exec_write128_eq cnt data s hc hb
  rw [absorb_eq_mixBlocks (by decide) _ _ _ hb, writeBytes_eq_digits, ← hstream,
    mixBlocks_eq_blocks128 _ _ _ (by omega), Option.map_eq_some_iff] at ha
  obtain ⟨a, hblocks, hleft⟩ := ha
  cases hleft
  exact ⟨l, hblocks, he⟩

/-- Settles O20: each bare word decodes, every other word of the opcode only records its error, and seeding is one update. -/
theorem seedingCommands128 : Obligations.SeedingCommands128 :=
  ⟨decode_bareWord (.init128 0 0), onlyBareWord_opcode (.init128 0 0) rfl, fun _ _ _ => rfl,
    decode_bareWord (.init64 0), onlyBareWord_opcode (.init64 0) rfl, fun _ _ => rfl,
    decode_bareWord .reset128, onlyBareWord_opcode .reset128 rfl, fun _ => rfl⟩

/-- Settles O27: `execSum128_next` and `execSum64_next`, with the digest a variable. -/
theorem sum128AndSum64WriteTheLanes : Obligations.Sum128AndSum64WriteTheLanes :=
  ⟨decode_bareWord .sum128, onlyBareWord_opcode .sum128 rfl, decode_bareWord .sum64, onlyBareWord_opcode .sum64 rfl,
    fun s hb d hd => ⟨execSum128_next s d hd hb, execSum64_next s d hd hb⟩⟩

end Sys2Proof.Machine
end

section
/-! PROOFS. The control command NOP (43_control.md). -/

namespace Sys2Proof.Machine

/-- Settles O18: the bare word decodes, every other word of the opcode only records its error, and `execNop` answers the state it
is given (R190). -/
theorem nopWritesNothing : Obligations.NopWritesNothing :=
  ⟨decode_bareWord .nop, onlyBareWord_opcode .nop rfl, fun _ => rfl⟩

end Sys2Proof.Machine
end

section
/-! SUPPORT. How a command or a step can end: goes on under the buffers' bounds (10_state.md R40), stops only with code 15 and the
state R203 leaves, and gives the reset state where the host's move resets. And what ERR and ECODE can do to a command: nothing. -/

namespace Sys2Proof.Machine

/-- Under the buffers' bounds an accepted command goes on, legal or not. -/
theorem runCommand_goes_on (c : Command) (s : State) (h : buffersOk s) : ∃ t, runCommand c s = .next t := by
  cases hd : decode c with
  | ok i => rw [runCommand_ok c i s hd]; exact exec_goes_on i s h
  | error e => exact ⟨_, runCommand_error c e s hd⟩

/-- The one fault there is: code 15, recorded. -/
theorem invariantFault_eq_fault (s : State) (f : Fault) (h : invariantFault s = .fault f) :
    f = .invariant (raiseCommandError .invariant s) :=
  (Host.Outcome.fault.inj h).symm

/-- A guarded command stops with code 15 only, if what is guarded does. -/
theorem guard32_fault (s : State) (k : Result) (f : Fault) (h : guard32 s k = .fault f)
    (hk : k = .fault f → f = .invariant (raiseCommandError .invariant s)) :
    f = .invariant (raiseCommandError .invariant s) := by
  unfold guard32 at h
  split at h
  · exact hk h
  · exact invariantFault_eq_fault s f h

/-- The same for the guard on BUF128. -/
theorem guard128_fault (s : State) (k : Result) (f : Fault) (h : guard128 s k = .fault f)
    (hk : k = .fault f → f = .invariant (raiseCommandError .invariant s)) :
    f = .invariant (raiseCommandError .invariant s) := by
  unfold guard128 at h
  split at h
  · exact hk h
  · exact invariantFault_eq_fault s f h

/-- WRITE32 stops with code 15 only. -/
theorem execWrite32_fault (cnt : BitVec 4) (data : Word64) (s : State) (f : Fault)
    (h : execWrite32 cnt data s = .fault f) : f = .invariant (raiseCommandError .invariant s) := by
  unfold execWrite32 at h
  split at h
  · refine guard32_fault s _ f h fun hk => ?_
    split at hk
    · cases hk
    · exact invariantFault_eq_fault s f hk
  · cases h

/-- WRITE128 stops with code 15 only. -/
theorem execWrite128_fault (cnt : BitVec 4) (data : Word64) (s : State) (f : Fault)
    (h : execWrite128 cnt data s = .fault f) : f = .invariant (raiseCommandError .invariant s) := by
  unfold execWrite128 at h
  split at h
  · refine guard128_fault s _ f h fun hk => ?_
    split at hk
    · cases hk
    · exact invariantFault_eq_fault s f hk
  · cases h

/-- A command that stops has raised code 15, and leaves the state before it but for the record (R203). -/
theorem exec_fault (i : Instr) (s : State) (f : Fault) (h : exec i s = .fault f) :
    f = .invariant (raiseCommandError .invariant s) := by
  cases i with
  | write32 cnt data => exact execWrite32_fault cnt data s f h
  | write128 cnt data => exact execWrite128_fault cnt data s f h
  | sum32 => exact guard32_fault s _ f h nofun
  | sum128 | sum64 => exact guard128_fault s _ f h nofun
  | nop | init32 | reset32 | size32 | init128 | init64 | reset128 | size128 | size64 => cases h

/-- WRITE32 with a legal count stops with code 15 on a buffer at or over its block size. -/
theorem execWrite32_over (cnt : BitVec 4) (data : Word64) (s : State) (hc : cnt.toNat ≤ 8)
    (hb : 4 ≤ s.ctx32.buf32.length) : execWrite32 cnt data s = invariantFault s :=
  (if_pos ((countLegal_iff cnt).2 hc)).trans (guard32_over s _ hb)

/-- The same for WRITE128. -/
theorem execWrite128_over (cnt : BitVec 4) (data : Word64) (s : State) (hc : cnt.toNat ≤ 8)
    (hb : 16 ≤ s.ctx128.buf128.length) : execWrite128 cnt data s = invariantFault s :=
  (if_pos ((countLegal_iff cnt).2 hc)).trans (guard128_over s _ hb)

/-- No well-formed command writes ERR. -/
theorem exec_keeps_err (i : Instr) (s t : State) (hw : i.wf = true) (h : exec i s = .next t) :
    t.status.err = s.status.err := by
  rw [exec_status i s t hw h]
  cases countWritten i <;> rfl

/-- The state with other values in ERR and ECODE. -/
abbrev State.withError (s : State) (err : Bool) (ecode : Option CommandError) : State :=
  { s with status := { s.status with err := err, ecode := ecode } }

/-- A well-formed command does the same whatever ERR and ECODE hold, and leaves those as they are (R206). -/
theorem exec_withError (i : Instr) (s t : State) (e : Bool) (x : Option CommandError) (hw : i.wf = true)
    (h : exec i s = .next t) : exec i (s.withError e x) = .next (t.withError e x) := by
  cases i with
  | write32 cnt data =>
    obtain ⟨hc, -⟩ | ⟨hc, hb, c, ht, rfl⟩ := execWrite32_cases cnt data s t h
    · exact absurd ((countLegal_iff cnt).1 hw) (Nat.not_le.2 hc)
    · obtain ⟨v, hv, he⟩ := execWrite32_next cnt data (s.withError e x) hc hb
      cases ht.symm.trans hv
      exact he
  | write128 cnt data =>
    obtain ⟨hc, -⟩ | ⟨hc, hb, c, ht, rfl⟩ := execWrite128_cases cnt data s t h
    · exact absurd ((countLegal_iff cnt).1 hw) (Nat.not_le.2 hc)
    · obtain ⟨v, hv, he⟩ := execWrite128_next cnt data (s.withError e x) hc hb
      cases ht.symm.trans hv
      exact he
  | sum32 => obtain ⟨hb, d, hd, rfl⟩ := execSum32_cases s t h; exact execSum32_next _ d hd hb
  | sum128 => obtain ⟨hb, d, hd, rfl⟩ := execSum128_cases s t h; exact execSum128_next _ d hd hb
  | sum64 => obtain ⟨hb, d, hd, rfl⟩ := execSum64_cases s t h; exact execSum64_next _ d hd hb
  | nop | init32 | reset32 | size32 | init128 | init64 | reset128 | size128 | size64 => cases h; rfl

/-- A step that resets ends with `rst` driven high, or released: hardware reset (R230, R244). -/
theorem step_of_resetsNext (s : State) (h : resetsNext s = true) :
    ∃ (u : State) (level : Bool), (u.rst = true ∨ level = true) ∧ step s = .next (u.driveRst level) := by
  cases hs : s.schedule with
  | nil => simp [resetsNext, hs] at h
  | cons m rest =>
    cases m with
    | issue | issueReading | read => simp [resetsNext, hs] at h
    | driveRst level =>
      exact ⟨{ s with schedule := rest }, level, by simpa [resetsNext, hs] using h, step_driveRst s level rest hs⟩
    | issueAborted n =>
      have hstep : step s = abortCommand n { s with schedule := rest } := by rw [step, nextMove, hs]; rfl
      obtain ha | ⟨c, -, -, ha⟩ := abortCommand_cases n { s with schedule := rest }
      · exact ⟨_, true, .inr rfl, hstep.trans ha⟩
      · exact ⟨_, true, .inr rfl, hstep.trans ha⟩

end Sys2Proof.Machine
end

section
/-! PROOFS. Command errors and the fault (60_exceptions.md): what is recorded, that it stays, that it changes nothing else, and
that code 15 is unreachable. -/

namespace Sys2Proof.Machine

/-- Settles O40: of what a step can do (`step_cases`) only running a command could stop, and under the buffers' bounds, which busy
reads and `pc` do not touch, it goes on. -/
theorem invariantStatesNeverStop : Obligations.InvariantStatesNeverStop := by
  rintro s ⟨hb, -⟩
  obtain h | ⟨n, c, -, -, h⟩ | ⟨n, c, -, -, h⟩ | h | ⟨level, h⟩ := step_cases s
  · exact ⟨_, h⟩
  · have hbusy : buffersOk (State.readBusy n s.popMove.advance) := by simpa [buffersOk] using hb
    rw [h]
    exact runCommand_goes_on c _ hbusy
  · exact ⟨_, h⟩
  · exact ⟨_, h⟩
  · exact ⟨_, h⟩

/-- Settles O10: the accepted command runs as the record of its error, and a fault carries the record of code 15. -/
theorem commandErrorsOnlyRecord : Obligations.CommandErrorsOnlyRecord :=
  ⟨fun s c e hr hs hp hd =>
    ((step_of_no_move s hs).trans (issueCommand_accepts 0 s c hr hp)).trans (runCommand_error c e _ hd), exec_fault⟩

/-- Settles O33: a step that resets nothing keeps STATUS, runs a command that writes neither field, or records a later error;
one that resets leaves the reset STATUS. -/
theorem recordedErrorIsSticky : Obligations.RecordedErrorIsSticky := by
  refine ⟨fun s t h hr herr => ?_, fun s hr => ?_⟩
  · obtain ⟨-, -, -, -, -, hst⟩ | ⟨n, i, -, hw, he⟩ | ⟨n, c, e, -, -, -, rfl⟩ := step_next_cases_of_no_reset s t h hr
    · rw [hst]; exact ⟨herr, rfl⟩
    · exact ⟨by simpa [herr] using exec_keeps_err i _ t hw he, by simpa using exec_keeps_ecode i _ t hw he⟩
    · exact ⟨rfl, by simp [recordError_ecode_later s.status e herr]⟩
  · obtain ⟨u, level, ha, hstep⟩ := step_of_resetsNext s hr
    exact ⟨_, hstep, by rw [driveRst_active u level ha]; exact ⟨rfl, rfl⟩⟩

/-- Settles O34: a command error is a next state, and a decoded command is well formed (`exec_withError`). -/
theorem recordedErrorDoesNotChangeExecution : Obligations.RecordedErrorDoesNotChangeExecution := by
  refine ⟨fun c e s hd => ⟨_, runCommand_error c e s hd⟩, fun c i s t e x hd h => ?_⟩
  rw [runCommand_ok c i _ hd] at h ⊢
  exact exec_withError i s t e x (wf_of_decode c i hd) h

/-- Settles O37: under the buffers' bounds a command goes on, and a well-formed one writes neither field; the decoder's checks
read the command word alone (`decode_of_same_word`). -/
theorem legalCommandsRecordNoError : Obligations.LegalCommandsRecordNoError := by
  refine ⟨fun i s hw hb => ?_, fun c c' e hc hd => ?_⟩
  · obtain ⟨t, ht⟩ := exec_goes_on i s hb
    exact ⟨t, ht, exec_keeps_err i s t hw ht, exec_keeps_ecode i s t hw ht⟩
  · rw [decode_of_same_word c c' hc, hd]; rfl

/-- Settles O29: each of the five is guarded, and the guard fails. -/
theorem overfullBufferIsThePermanentFault : Obligations.OverfullBufferIsThePermanentFault := by
  intro s cnt data hc
  refine ⟨fun hb => ?_, fun hb => ?_⟩
  · exact List.forall_mem_cons.2 ⟨execWrite32_over cnt data s hc hb, List.forall_mem_singleton.2 (guard32_over s _ hb)⟩
  · exact List.forall_mem_cons.2 ⟨execWrite128_over cnt data s hc hb,
      List.forall_mem_cons.2 ⟨guard128_over s _ hb, List.forall_mem_singleton.2 (guard128_over s _ hb)⟩⟩

end Sys2Proof.Machine
end

section
/-! SUPPORT. Reset (70_reset_and_hazards.md R230, R231, R244): what a level on `rst` does to the engine and to the host's side,
the two ways an abort can go, and which commands leave the result registers alone (R29). -/

namespace Sys2Proof.Machine

/-- Driving `rst` high, or releasing it, leaves the engine at its reset values (R230, R231). -/
theorem engineReset_driveRst (s : State) (level : Bool) (h : s.rst = true ∨ level = true) : engineReset (s.driveRst level) := by
  rw [driveRst_active s level h]
  exact ⟨rfl, rfl, rfl, rfl, rfl⟩

/-- `rst` shows the level that was driven, and the host's side is as before (log 10). -/
theorem driveRst_host_side (s : State) (level : Bool) :
    (s.driveRst level).rst = level ∧ (s.driveRst level).schedule = s.schedule ∧ (s.driveRst level).pc = s.pc ∧
      (s.driveRst level).program = s.program ∧ (s.driveRst level).reads = s.reads ∧
      (s.driveRst level).draws = s.draws := by
  by_cases ha : s.rst = true ∨ level = true
  · rw [driveRst_active s level ha]
    exact ⟨rfl, rfl, rfl, rfl, rfl, rfl⟩
  · obtain ⟨hr, hl⟩ := not_or.1 ha
    rw [Bool.eq_false_iff.2 hl, driveRst_idle s (Bool.eq_false_iff.2 hr)]
    exact ⟨Bool.eq_false_iff.2 hr, rfl, rfl, rfl, rfl, rfl⟩

/-- A scheduled abort, taken off the schedule. -/
theorem step_of_issueAborted (s : State) (n : Nat) (rest : List HostMove) (h : s.schedule = .issueAborted n :: rest) :
    step s = abortCommand n { s with schedule := rest } := by
  rw [step, nextMove, h]; rfl

/-- With `rst` low the command at `pc` is accepted, `pc` moves on and the host reads, before `rst` goes high. -/
theorem abortCommand_accepts (n : Nat) (s : State) (hr : s.rst = false) (hpc : s.pc < s.program.length) :
    abortCommand n s = .next ((State.readBusy n s.advance).driveRst true) := by
  rw [abortCommand, State.presented, State.cmdReady, List.getElem?_eq_getElem hpc, hr]; rfl

/-- With no command left or `rst` high, aborting only drives `rst`, whatever reads were planned. -/
theorem abortCommand_waits (n : Nat) (s : State) (h : s.rst = true ∨ s.program.length ≤ s.pc) :
    abortCommand n s = .next (s.driveRst true) := by
  obtain hs | ⟨c, hp, hr, -⟩ := abortCommand_cases n s
  · exact hs
  · obtain ⟨hlt, -⟩ := List.getElem?_eq_some_iff.1 hp
    obtain h | h := h
    · rw [hr] at h; cases h
    · omega

/-- Of all commands only the SUM and SIZE commands write RES0 and RES1. -/
theorem exec_keeps_results (i : Instr) (s t : State) (hw : writesResults i = false) (h : exec i s = .next t) :
    t.res0 = s.res0 ∧ t.res1 = s.res1 := by
  cases i with
  | sum32 | size32 | sum128 | sum64 | size128 | size64 => cases hw
  | write32 cnt data =>
    obtain ⟨-, rfl⟩ | ⟨-, -, c, -, rfl⟩ := execWrite32_cases cnt data s t h <;> exact ⟨rfl, rfl⟩
  | write128 cnt data =>
    obtain ⟨-, rfl⟩ | ⟨-, -, c, -, rfl⟩ := execWrite128_cases cnt data s t h <;> exact ⟨rfl, rfl⟩
  | nop | init32 | reset32 | init128 | init64 | reset128 => cases h; exact ⟨rfl, rfl⟩

end Sys2Proof.Machine
end

section
/-! PROOFS. Reset, waiting and the results (70_reset_and_hazards.md): what hardware reset and an aborted command leave, what the
engine does while it accepts nothing, and when the results change. -/

namespace Sys2Proof.Machine

/-- Settles O43: a step that resets nothing accepts no command, runs one that is no SUM or SIZE, or records an error. -/
theorem resultsStayPut : Obligations.ResultsStayPut := by
  intro s t h hr hw
  obtain ⟨-, -, -, h0, h1, -⟩ | ⟨n, i, ha, -, he⟩ | ⟨n, c, e, -, -, -, rfl⟩ := step_next_cases_of_no_reset s t h hr
  · exact ⟨h0, h1⟩
  · simpa using exec_keeps_results i _ t (hw i ha) he
  · simp

/-- Settles O11: with no move scheduled the step issues, and past the program's end there is nothing to issue. -/
theorem engineWaitsForCommands : Obligations.EngineWaitsForCommands :=
  fun s hs hp => (step_of_no_move s hs).trans (issueCommand_waits 0 s (.inr hp))

/-- Settles O12: with `rst` high issuing waits (`issueCommand_waits`); every other move named ends in a `driveRst`, which leaves
the host's side alone (`driveRst_host_side`) where the abort's own reads and `pc` have not moved it. -/
theorem resetHoldsOffCommands : Obligations.ResetHoldsOffCommands := by
  refine ⟨fun s hr => ?_, fun s level rest hs => ?_, fun s n rest hs => ⟨fun hr hpc => ?_, fun hw => ?_⟩⟩
  · refine ⟨by rw [State.cmdReady, hr]; rfl, fun hs => ?_, fun rest hs => ?_, fun n rest hs => ?_, fun rest hs => ?_⟩
    · exact (step_of_no_move s hs).trans (issueCommand_waits 0 s (.inl hr))
    · exact (step_of_issue s rest hs).trans (issueCommand_waits 0 _ (.inl hr))
    · exact (step_of_issueReading s n rest hs).trans (issueCommand_waits n _ (.inl hr))
    · obtain ⟨hrst, -, hpc, hprog, -⟩ := driveRst_host_side { s with schedule := rest } false
      exact ⟨_, step_driveRst s false rest hs, by rw [State.cmdReady, hrst]; rfl, engineReset_driveRst _ false (.inl hr), hpc,
        hprog⟩
  · exact ⟨_, step_driveRst s level rest hs, driveRst_host_side { s with schedule := rest } level⟩
  · have hstep := (step_of_issueAborted s n rest hs).trans (abortCommand_accepts n { s with schedule := rest } hr hpc)
    refine ⟨_, hstep, engineReset_driveRst _ true (.inr rfl), ?_⟩
    simpa [readBusy_reads] using driveRst_host_side (State.readBusy n ({ s with schedule := rest } : State).advance) true
  · have hstep := (step_of_issueAborted s n rest hs).trans (abortCommand_waits n { s with schedule := rest } hw)
    exact ⟨_, hstep, engineReset_driveRst _ true (.inr rfl), driveRst_host_side { s with schedule := rest } true⟩

/-- Settles O13: the step is a `driveRst`, and each value of R231's table is read off the reset contexts, results and STATUS. -/
theorem hardwareResetSetsEveryValue : Obligations.HardwareResetSetsEveryValue := by
  intro s rest hs
  obtain ⟨h32, h128, h0, h1, hst⟩ := engineReset_driveRst { s with schedule := rest } true (.inr rfl)
  refine ⟨_, step_driveRst s true rest hs, ?_⟩
  rw [h32, h128, h0, h1, hst]
  exact ⟨rfl, rfl, rfl, rfl, rfl, rfl, rfl, rfl, rfl, rfl, rfl, rfl, by decide, rfl, rfl, rfl⟩

/-- Settles O14: the abort of the accepted command ends in a `driveRst`, after which nothing of the engine's state is left. -/
theorem abortedCommandLeavesNoTrace : Obligations.AbortedCommandLeavesNoTrace := by
  intro s c n rest hr hp hs
  obtain ⟨hpc, -⟩ := List.getElem?_eq_some_iff.1 hp
  exact ⟨_, (step_of_issueAborted s n rest hs).trans (abortCommand_accepts n { s with schedule := rest } hr hpc),
    engineReset_driveRst _ true (.inr rfl)⟩

/-- Settles O38: both contexts are empty, STATUS is 0, `pc` is at the start of the empty program, and `rst` is low. -/
theorem resetMeetsTheInvariant : Obligations.ResetMeetsTheInvariant :=
  (inv_iff State.reset).2
    ⟨Ctx32.ok_of_empty _ rfl rfl, Ctx128.ok_of_empty _ rfl rfl, ⟨rfl, nofun, Nat.zero_le _⟩, Nat.le_refl 0, nofun⟩

/-- Settles O45: seeding with 0 builds the context that stands in the reset state, field by field (R232). -/
theorem resetIsTheDefaultSeed : Obligations.ResetIsTheDefaultSeed :=
  ⟨rfl, rfl, rfl⟩

end Sys2Proof.Machine
end
